-- ==== Sys2Proof/Word.lean ====
section
/-! DEFINITION. The word types (00_scope.md R6, R8, R11).

A *cell* is what every storage of the machine holds: 16 bits.
A *Word* is a value in 0..32767: what a resolved operand is, 15 bits.
Both are unsigned; nothing in this hardware is signed (R8). -/

namespace Sys2Proof

/-- A 16-bit storage cell (R6 `CELL_BITS`, R8). -/
abbrev Cell := BitVec 16

/-- A value in 0..32767 (R6 `VALUE_BITS`, R11 "Word"). -/
abbrev Word := BitVec 15

/-- A byte of a program image file, the only place where bytes appear (20_memory.md R56, R59). -/
abbrev Byte := BitVec 8

/-- A register number, 0 to 7 (10_state.md R20). -/
abbrev Reg := Fin 8

end Sys2Proof
end

