-- ==== Sys2Proof/Machine/Flags.lean ====
section
/-! DEFINITION. What this hardware has instead of flags. It has no flags, no condition codes and no predicate
registers (10_state.md R28): a compare writes the number 1 or 0 into a register (42_compare.md), and a
conditional jump tests a resolved operand against zero (43_control_transfer.md). -/

namespace Sys2Proof.Machine

/-- The Word a compare gives: 1 or 0 (R140, R141). -/
def truthWord (b : Bool) : Word := if b then 1 else 0

/-- Does `jt` jump on this value (R151)? `jf` jumps exactly when it does not (R152). -/
def isTrue (v : Word) : Bool := decide (v ≠ 0)

end Sys2Proof.Machine
end

