-- ==== Sys2Proof/Config.lean ====
section
/-! DEFINITION. The sizes the spec fixes (00_scope.md R6).

No implementation parameter needs an uninterpreted constant: the three open parameters of R6 are launch
arguments. `IMAGE` is an argument of the load port (Machine/Load.lean); `INPUT` and `STACK_DEPTH` are data of
State (notes/assumptions/2.md, 3.md). The spec leaves no value open (93_implementation_defined.md, after U19),
so there is no free value. -/

namespace Sys2Proof

/-- `MEM_WORDS`: the number of memory cells, addresses 0 to 32767 (R6). -/
abbrev Config.memWords : Nat := 32768

/-- `MODULUS`, 2^15: arithmetic results are reduced modulo this (R6). -/
abbrev Config.modulus : Nat := 32768

/-- `REG_BASE`: operand number `REG_BASE + k` denotes register k (R6). -/
abbrev Config.regBase : Nat := 32768

/-- `REG_TOP`: the largest valid operand number (R6). -/
abbrev Config.regTop : Nat := 32775

/-- The longest instruction, in cells (30_encoding.md R80). -/
abbrev Config.maxCells : Nat := 4

end Sys2Proof
end

