-- ==== Sys2Proof/Syntax.lean ====
section
/-! DEFINITION. The instruction set as syntax (30_encoding.md R82, R83, R86).

An operand keeps all three classes of R82, the invalid one with its word: an invalid word is no decoding
error, it faults only when an instruction uses it (R91). -/

namespace Sys2Proof

/-- The three classes of an operand word (R82). -/
inductive Operand where
  /-- A word 0..32767: the value itself. -/
  | literal (v : Word)
  /-- A word 32768 + k: register k. -/
  | register (k : Reg)
  /-- A word 32776..65535, kept as it is. -/
  | invalid (w : Cell)
  deriving DecidableEq, Repr

/-- The 22 opcodes (R86), with the constructors of `Instr`; `input` is the table's `in`, a word Lean keeps. -/
inductive Opcode where
  | halt | set | push | pop | eq | gt | jmp | jt | jf | add | mult | mod | and | or | not
  | writeMem | readMem | call | ret | out | input | noop
  deriving DecidableEq, Repr

/-- The number of operand words an opcode takes (R86, R87). -/
def Opcode.arity : Opcode → Nat
  | .halt => 0
  | .set => 2
  | .push => 1
  | .pop => 1
  | .eq => 3
  | .gt => 3
  | .jmp => 1
  | .jt => 2
  | .jf => 2
  | .add => 3
  | .mult => 3
  | .mod => 3
  | .and => 3
  | .or => 3
  | .not => 2
  | .writeMem => 2
  | .readMem => 2
  | .call => 1
  | .ret => 0
  | .out => 1
  | .input => 1
  | .noop => 0

/-- One constructor per row of the opcode table (R86). A `dest` is an operand too: which words it may be is
checked when the instruction runs (40_dispatch.md R115), not when it is decoded (R91). -/
inductive Instr where
  | halt
  | set (dest src : Operand)
  | push (src : Operand)
  | pop (dest : Operand)
  | eq (dest b c : Operand)
  | gt (dest b c : Operand)
  | jmp (target : Operand)
  | jt (cond target : Operand)
  | jf (cond target : Operand)
  | add (dest b c : Operand)
  | mult (dest b c : Operand)
  | mod (dest b c : Operand)
  | and (dest b c : Operand)
  | or (dest b c : Operand)
  | not (dest src : Operand)
  | writeMem (addr src : Operand)
  | readMem (dest addr : Operand)
  | call (target : Operand)
  | ret
  | out (src : Operand)
  | input (dest : Operand)
  | noop
  deriving DecidableEq, Repr

/-- The opcode of an instruction. -/
def Instr.opcode : Instr → Opcode
  | .halt => .halt
  | .set _ _ => .set
  | .push _ => .push
  | .pop _ => .pop
  | .eq _ _ _ => .eq
  | .gt _ _ _ => .gt
  | .jmp _ => .jmp
  | .jt _ _ => .jt
  | .jf _ _ => .jf
  | .add _ _ _ => .add
  | .mult _ _ _ => .mult
  | .mod _ _ _ => .mod
  | .and _ _ _ => .and
  | .or _ _ _ => .or
  | .not _ _ => .not
  | .writeMem _ _ => .writeMem
  | .readMem _ _ => .readMem
  | .call _ => .call
  | .ret => .ret
  | .out _ => .out
  | .input _ => .input
  | .noop => .noop

/-- The operands of an instruction, in the order w1, w2, w3 (00_scope.md R10). -/
def Instr.operands : Instr → List Operand
  | .halt => []
  | .set d a => [d, a]
  | .push a => [a]
  | .pop d => [d]
  | .eq d b c => [d, b, c]
  | .gt d b c => [d, b, c]
  | .jmp t => [t]
  | .jt c t => [c, t]
  | .jf c t => [c, t]
  | .add d b c => [d, b, c]
  | .mult d b c => [d, b, c]
  | .mod d b c => [d, b, c]
  | .and d b c => [d, b, c]
  | .or d b c => [d, b, c]
  | .not d a => [d, a]
  | .writeMem a v => [a, v]
  | .readMem d a => [d, a]
  | .call t => [t]
  | .ret => []
  | .out a => [a]
  | .input d => [d]
  | .noop => []

end Sys2Proof
end

