-- ==== Sys2Proof/WellFormed.lean ====
section
/-! DEFINITION. Which terms of the syntax are operands and instructions of the hardware.

A literal and a register are right by their types. Only the invalid class needs a check: it holds just the
words 32776..65535 (30_encoding.md R82), so that every word has exactly one operand. -/

namespace Sys2Proof

/-- An invalid operand holds a word above `REG_TOP` (R82). -/
def Operand.wellFormed : Operand → Bool
  | .literal _ => true
  | .register _ => true
  | .invalid w => decide (Config.regTop < w.toNat)

/-- Every operand of the instruction is well formed. -/
def Instr.wellFormed (i : Instr) : Bool := i.operands.all Operand.wellFormed

end Sys2Proof
end

