-- ==== Sys2Proof/Decode.lean ====
section
/-! DEFINITION. Words to instructions and back (30_encoding.md).

An instruction is one to four whole cells at ascending addresses (R80, R81). Decoding is total on any list of
cells and rejects by name; the encoder after it is written from the same table (R86). -/

namespace Sys2Proof

/-- The cell that holds a Word: bit 15 is 0 (00_scope.md R8). -/
def cellOfWord (v : Word) : Cell := v.setWidth 16

/-- The low 15 bits of a cell, `w[14:0]` (R82). -/
def wordOfCell (w : Cell) : Word := w.setWidth 15

/-- Does a cell hold a Word, that is a value in 0..32767 (00_scope.md R8)? -/
def cellIsWord (w : Cell) : Bool := decide (w.toNat < Config.modulus)

/-- The class of an operand word (R82). -/
def operandOf (w : Cell) : Operand :=
  if w.toNat < Config.regBase then .literal (wordOfCell w)
  else if w.toNat ≤ Config.regTop then .register (Fin.ofNat 8 (w.toNat - Config.regBase))
  else .invalid w

/-- The opcode of an opcode word, compared as a whole 16-bit number (R81, R86); none for 22..65535 (R90). -/
def opcodeOf (op : Cell) : Option Opcode :=
  match op.toNat with
  | 0 => some .halt
  | 1 => some .set
  | 2 => some .push
  | 3 => some .pop
  | 4 => some .eq
  | 5 => some .gt
  | 6 => some .jmp
  | 7 => some .jt
  | 8 => some .jf
  | 9 => some .add
  | 10 => some .mult
  | 11 => some .mod
  | 12 => some .and
  | 13 => some .or
  | 14 => some .not
  | 15 => some .writeMem
  | 16 => some .readMem
  | 17 => some .call
  | 18 => some .ret
  | 19 => some .out
  | 20 => some .input
  | 21 => some .noop
  | _ => none

/-- Why a list of cells is no instruction. -/
inductive DecodeError where
  /-- There is no cell at all. -/
  | noOpcode
  /-- The opcode word is 22..65535 (R90). -/
  | unknownOpcode (op : Cell)
  /-- The opcode is known and fewer cells than its arity follow. -/
  | truncated (op : Opcode)
  deriving DecidableEq, Repr

/-- Format F1: one operand cell (R81). -/
def format1 (f : Operand → Instr) : List Cell → Option (Instr × List Cell)
  | w1 :: rest => some (f (operandOf w1), rest)
  | [] => none

/-- Format F2: two operand cells (R81). -/
def format2 (f : Operand → Operand → Instr) : List Cell → Option (Instr × List Cell)
  | w1 :: w2 :: rest => some (f (operandOf w1) (operandOf w2), rest)
  | [_] => none
  | [] => none

/-- Format F3: three operand cells (R81). -/
def format3 (f : Operand → Operand → Operand → Instr) : List Cell → Option (Instr × List Cell)
  | w1 :: w2 :: w3 :: rest => some (f (operandOf w1) (operandOf w2) (operandOf w3), rest)
  | [_, _] => none
  | [_] => none
  | [] => none

/-- The instruction of an opcode and the cells after it, with the cells left over (R86). -/
def withOperands (op : Opcode) (cells : List Cell) : Option (Instr × List Cell) :=
  match op with
  | .halt => some (.halt, cells)
  | .set => format2 .set cells
  | .push => format1 .push cells
  | .pop => format1 .pop cells
  | .eq => format3 .eq cells
  | .gt => format3 .gt cells
  | .jmp => format1 .jmp cells
  | .jt => format2 .jt cells
  | .jf => format2 .jf cells
  | .add => format3 .add cells
  | .mult => format3 .mult cells
  | .mod => format3 .mod cells
  | .and => format3 .and cells
  | .or => format3 .or cells
  | .not => format2 .not cells
  | .writeMem => format2 .writeMem cells
  | .readMem => format2 .readMem cells
  | .call => format1 .call cells
  | .ret => some (.ret, cells)
  | .out => format1 .out cells
  | .input => format1 .input cells
  | .noop => some (.noop, cells)

/-- Decode the instruction at the head of a list of cells: the opcode word alone decides the length (R80),
every operand cell may hold any value (R88). -/
def decode : List Cell → Except DecodeError (Instr × List Cell)
  | [] => .error .noOpcode
  | op :: rest =>
    match opcodeOf op with
    | none => .error (.unknownOpcode op)
    | some o =>
      match withOperands o rest with
      | none => .error (.truncated o)
      | some r => .ok r

/-- The opcode number of an opcode, as its cell (R86). -/
def opcodeCell : Opcode → Cell
  | .halt => 0
  | .set => 1
  | .push => 2
  | .pop => 3
  | .eq => 4
  | .gt => 5
  | .jmp => 6
  | .jt => 7
  | .jf => 8
  | .add => 9
  | .mult => 10
  | .mod => 11
  | .and => 12
  | .or => 13
  | .not => 14
  | .writeMem => 15
  | .readMem => 16
  | .call => 17
  | .ret => 18
  | .out => 19
  | .input => 20
  | .noop => 21

/-- The word of an operand (R82): a literal is itself, register k is 32768 + k. -/
def operandCell : Operand → Cell
  | .literal v => cellOfWord v
  | .register k => BitVec.ofNat 16 (Config.regBase + k.val)
  | .invalid w => w

/-- The cells of an instruction: the opcode word, then the operand words in order (R80). -/
def encode (i : Instr) : List Cell := opcodeCell i.opcode :: i.operands.map operandCell

/-- Cell `j` of a number whose bits 16j+15..16j are that cell. -/
def cellOfBits (w j : Nat) : Cell := BitVec.ofNat 16 (w >>> (16 * j))

/-- The four cells of an instruction whose bits are `w`, the first word lowest; every bit from `nbits` up
is 0. -/
def tableCells (nbits w : Nat) : List Cell :=
  let v := w % 2 ^ nbits
  [cellOfBits v 0, cellOfBits v 1, cellOfBits v 2, cellOfBits v 3]

/-- What the decoder reads from an instruction whose bits are numbered as spec/opcode_table.json numbers them:
bit 0 is the least significant bit of the first word. -/
def decodeTableWord (nbits w : Nat) : Option Instr :=
  match decode (tableCells nbits w) with
  | .ok (i, _) => some i
  | .error _ => none

end Sys2Proof
end

