-- ==== Sys2Proof/Machine/State.lean ====
section
/-! DEFINITION. The whole state of one VM instance (10_state.md, the tuple at its head), as plain data. -/

namespace Sys2Proof.Machine

/-- The seven fatal causes (60_exceptions.md R221). The non-fatal InvalidOpcode is no fault (R226). -/
inductive Cause where
  | stackUnderflow
  | divideOrModByZero
  | invalidOperand
  | fetchOutOfRange
  | registerRangeViolation
  | inputUnavailable
  | stackOverflow
  deriving DecidableEq, Repr

/-- The fault record (10_state.md R36): the cause, the opcode word of the failing instruction and the address A
of that word. -/
structure FaultRecord where
  cause : Cause
  opcode : Cell
  addr : Cell
  deriving DecidableEq, Repr

/-- The diagnostic record `InvalidOpcode(A, opcode)`, the only kind there is (10_state.md R41). -/
structure DiagRecord where
  addr : Cell
  opcode : Cell
  deriving DecidableEq, Repr

/-- The run state (10_state.md R34). -/
inductive RunState where
  | running
  | halted
  deriving DecidableEq, Repr

/-- Memory as a sparse list of (address, cell) pairs, addresses strictly rising, no pair that holds what an
unlisted address reads as. The unit is the 16-bit cell, not the byte (20_memory.md R50, R54;
notes/assumptions/1.md). `Memory.wf` in Machine/Ops.lean says the form. -/
abbrev Memory := List (Nat × Cell)

/-- What a memory cell that is not listed reads as: 0, the reset contents (10_state.md R43). -/
abbrev Memory.unlisted : Cell := 0

/-- Why `step` answers no next state: the engine has no step (10_state.md R35). Each is raised by
Machine/Step.lean alone, and each is safe: the spec gives no further step there. A fatal condition of an
instruction is NOT one of these: it is a next state with the fault record written (60_exceptions.md R229,
notes/assumptions/5.md). -/
inductive Fault where
  /-- Raised by `step` when a fault record stands (status FAULTED, 70_reset_and_hazards.md R264): safe. -/
  | faulted (r : FaultRecord)
  /-- Raised by `step` when `run` is HALTED (R264, a successful end): safe. -/
  | halted
  /-- Raised by `step` when the pc has passed the last address (R264, EXHAUSTED): safe. -/
  | exhausted
  deriving DecidableEq, Repr

/-- Why an instruction has no meaning. No instruction of this hardware is refused. -/
inductive Refusal where
  /-- Raised by an arm of `exec` whose instruction has no meaning yet; there is none: safe. -/
  | notModelled (mnemonic : String)
  deriving DecidableEq, Repr

/-- The state tuple S of 10_state.md, and the launch parameter `STACK_DEPTH` (00_scope.md R6). -/
structure State where
  /-- `x[0..7]`: 8 cells of 16 bits (R20, R22). -/
  regs : Vector Cell 8
  /-- `mem[0..32767]`: 32768 cells of 16 bits (20_memory.md R50, R54). -/
  mem : Memory
  /-- The stack of 16-bit cells, the tail on the right (R30). -/
  stack : List Cell
  /-- The program counter, 16 bits, values 0..32768 (R26). -/
  pc : Cell
  /-- The run state (R34). -/
  run : RunState
  /-- The fault record (R36). -/
  fault : Option FaultRecord
  /-- The output stream, a sequence of Words (R39). -/
  out : List Word
  /-- The diagnostic channel (R41). -/
  diag : List DiagRecord
  /-- The input stream: none, or the Words still to be delivered (R40). -/
  inp : Option (List Word)
  /-- `STACK_DEPTH`: none is `unbounded` (R31, notes/assumptions/3.md). -/
  stackDepth : Option Nat
  deriving DecidableEq, Repr

/-- Reset with the two launch arguments the state holds (10_state.md R43, 70_reset_and_hazards.md R260). -/
def State.resetWith (input : Option (List Word)) (depth : Option Nat) : State where
  regs := Vector.replicate 8 0
  mem := []
  stack := []
  pc := 0
  run := .running
  fault := none
  out := []
  diag := []
  inp := input
  stackDepth := depth

/-- The machine right after reset (R43). `STACK_DEPTH` has the spec's default, unbounded (00_scope.md R6);
`INPUT` is taken to be none, no input stream wired (DESIGN CHOICE, notes/assumptions/2.md). -/
def State.reset : State := State.resetWith none none

end Sys2Proof.Machine
end

