-- ==== Sys2Proof/Machine/Ops.lean ====
section
/-! DEFINITION. The named operations over memory, registers, stack and streams (00_scope.md R9), and the two
shared ends of an instruction: the generic advance and taking a fault. -/

namespace Sys2Proof.Machine

/-! ## Memory -/

/-- The content of the cell at an address. -/
def Memory.read : Memory → Nat → Cell
  | [], _ => Memory.unlisted
  | (b, x) :: rest, a => if a = b then x else Memory.read rest a

/-- The memory without cell `a`, which then reads as unlisted. -/
def Memory.erase (m : Memory) (a : Nat) : Memory := m.filter (fun c => decide (c.1 ≠ a))

/-- The memory with a cell put at its place in address order. -/
def Memory.insert : Memory → Nat → Cell → Memory
  | [], a, v => [(a, v)]
  | (b, x) :: rest, a, v => if a < b then (a, v) :: (b, x) :: rest else (b, x) :: Memory.insert rest a v

/-- Write one cell, keeping the canonical form: a value that an unlisted address reads as is not listed. -/
def Memory.write (m : Memory) (a : Nat) (v : Cell) : Memory :=
  if v = Memory.unlisted then m.erase a else (m.erase a).insert a v

/-- The canonical form: addresses strictly rising and inside memory, no cell that an unlisted address would
read as. -/
def Memory.wf : Memory → Bool
  | [] => true
  | (a, v) :: rest =>
    decide (a < Config.memWords) && decide (v ≠ Memory.unlisted) && rest.all (fun c => decide (a < c.1)) &&
      Memory.wf rest

/-- `MemRead(a, 1)` (20_memory.md R52). An address is a Word, so it is always in 0..32767. -/
def State.memRead (s : State) (a : Word) : Cell := s.mem.read a.toNat

/-- `MemWrite(a, 1, v)` (R53). -/
def State.memWrite (s : State) (a : Word) (v : Cell) : State := { s with mem := s.mem.write a.toNat v }

/-- The cells at `a`, `a + 1`, … , at most `n` of them, none past the last address: what the operand fetch can
reach (40_dispatch.md R112, R116). -/
def Memory.window (m : Memory) (a : Nat) : Nat → List Cell
  | 0 => []
  | n + 1 => if a < Config.memWords then m.read a :: Memory.window m (a + 1) n else []

/-! ## Registers -/

/-- `x[k]` (00_scope.md R9). -/
def State.readReg (s : State) (k : Reg) : Cell := s.regs[k]

/-- Store a cell in a register with no check: the register file itself (10_state.md R20). -/
def State.setReg (s : State) (k : Reg) (v : Cell) : State := { s with regs := s.regs.set k v }

/-- `x[k] <- v`, the register write port: it stores nothing and raises `RegisterRangeViolation` when v is above
32767 (10_state.md R23). -/
def State.writeReg (s : State) (k : Reg) (v : Cell) : Except Cause State :=
  if cellIsWord v then .ok (s.setReg k v) else .error .registerRangeViolation

/-! ## Stack -/

/-- Is there room for one more cell (10_state.md R31)? Always, when `STACK_DEPTH` is unbounded. -/
def State.stackHasRoom (s : State) : Bool :=
  match s.stackDepth with
  | none => true
  | some depth => decide (s.stack.length < depth)

/-- `Push(v)`: append at the tail, or raise `StackOverflow` and store nothing (R31). -/
def State.push (s : State) (v : Cell) : Except Cause State :=
  if s.stackHasRoom then .ok { s with stack := s.stack ++ [v] } else .error .stackOverflow

/-- `Pop()`: remove and return the tail, or change nothing and raise `StackUnderflow` (R32). -/
def State.pop (s : State) : Except Cause (Cell × State) :=
  match s.stack.getLast? with
  | none => .error .stackUnderflow
  | some v => .ok (v, { s with stack := s.stack.dropLast })

/-! ## Streams -/

/-- `Emit(c)` (10_state.md R39). -/
def State.emit (s : State) (c : Word) : State := { s with out := s.out ++ [c] }

/-- `Diag(r)` (R41). -/
def State.report (s : State) (r : DiagRecord) : State := { s with diag := s.diag ++ [r] }

/-- `NextInput()`: the next Word, or `InputUnavailable` with nothing changed when no stream is wired or none is
left (R40). -/
def State.nextInput (s : State) : Except Cause (Word × State) :=
  match s.inp with
  | none => .error .inputUnavailable
  | some [] => .error .inputUnavailable
  | some (c :: rest) => .ok (c, { s with inp := some rest })

/-! ## The two ends of an instruction -/

/-- `raise E`: the fault record is written and nothing else changes (60_exceptions.md R229). The state given
holds the pc the fault leaves, and is otherwise the state before the step. -/
def State.raise (s : State) (cause : Cause) (opcode addr : Cell) : State :=
  { s with fault := some { cause := cause, opcode := opcode, addr := addr } }

/-- How a handler that raises nothing ends (40_dispatch.md R113). -/
inductive HandlerEnd where
  /-- It did not write the pc: the generic advance follows. -/
  | advance (s : State)
  /-- It wrote the pc: no generic advance. -/
  | jump (s : State) (target : Cell)
  deriving DecidableEq, Repr

/-- Run a handler for the instruction whose opcode word is at the pc, and end it (40_dispatch.md R110): the
handler sees `pc = A + n` (R112); then the generic advance, or the handler's own pc (R113), or the fault
record, with every other effect of the handler dropped (R117, R229). -/
def runHandler (op : Opcode) (s : State) (handler : State → Except Cause HandlerEnd) :
    Host.Outcome State Fault Refusal :=
  let fetched := { s with pc := s.pc + BitVec.ofNat 16 op.arity }
  match handler fetched with
  | .ok (.advance t) => .next { t with pc := t.pc + 1 }
  | .ok (.jump t target) => .next { t with pc := target }
  | .error cause => .next (fetched.raise cause (opcodeCell op) s.pc)

end Sys2Proof.Machine
end

