-- ==== Sys2Proof/Machine/Operands.lean ====
section
/-! DEFINITION. Operand resolution `get` and destination decoding `dst` (40_dispatch.md R114, R115). There is no
other operand form (45_memory_access.md R192). -/

namespace Sys2Proof.Machine

/-- `get(w)`: a literal is itself, a register word gives the register's content, any other word is an
`InvalidOperand` (R114). The result is a Word: bit 15 of a register is always 0 (10_state.md R22), so its low
15 bits are its value (notes/assumptions/4.md). -/
def State.getOperand (s : State) : Operand → Except Cause Word
  | .literal v => .ok v
  | .register k => .ok (wordOfCell (s.readReg k))
  | .invalid _ => .error .invalidOperand

/-- `dst(w)`: only a register word is accepted, and it names the register to write (R115). -/
def destOf : Operand → Except Cause Reg
  | .register k => .ok k
  | .literal _ => .error .invalidOperand
  | .invalid _ => .error .invalidOperand

end Sys2Proof.Machine
end

