-- ==== Sys2Proof/Machine/Alu.lean ====
section
/-! DEFINITION. The `alu_16bit_modular` sub-block: a pure function on Words (44_alu.md R176, R177), and the
handlers of the instructions it serves. -/

namespace Sys2Proof.Machine

/-- The eight operations of the sub-block (R177). -/
inductive AluOp where
  | add | mult | mod | and | or | not | eq | gt
  deriving DecidableEq, Repr

/-- A number reduced modulo 32768 (R176). -/
def reduce (n : Nat) : Word := BitVec.ofNat 15 (n % Config.modulus)

/-- `alu(op, b, c)` (R177): none is the error bit, `div_by_zero`, with no result then (R176). `c` is ignored for
NOT. -/
def alu (op : AluOp) (b c : Word) : Option Word :=
  match op with
  | .add => some (reduce (b.toNat + c.toNat))
  | .mult => some (reduce (b.toNat * c.toNat))
  | .mod => if c = 0 then none else some (reduce (b.toNat % c.toNat))
  | .and => some (b &&& c)
  | .or => some (b ||| c)
  | .not => some (b ^^^ 0x7FFF)
  | .eq => some (truthWord (decide (b = c)))
  | .gt => some (truthWord (decide (c.toNat < b.toNat)))

/-- The result, or `DivideOrModByZero` (60_exceptions.md R223). -/
def aluResult (op : AluOp) (b c : Word) : Except Cause Word :=
  match alu op b c with
  | none => .error .divideOrModByZero
  | some r => .ok r

/-- Operands first, in order, then the operation, then the write (40_dispatch.md R117): the handler of an
instruction `dest, b, c`. -/
def aluHandler3 (op : AluOp) (dest b c : Operand) (s : State) : Except Cause HandlerEnd := do
  let k ← destOf dest
  let vb ← s.getOperand b
  let vc ← s.getOperand c
  let r ← aluResult op vb vc
  let t ← s.writeReg k (cellOfWord r)
  return .advance t

/-- The handler of an instruction `dest, src` on the ALU. -/
def aluHandler2 (op : AluOp) (dest src : Operand) (s : State) : Except Cause HandlerEnd := do
  let k ← destOf dest
  let v ← s.getOperand src
  let r ← aluResult op v 0
  let t ← s.writeReg k (cellOfWord r)
  return .advance t

end Sys2Proof.Machine
end

