-- ==== Sys2Proof/Machine/Arithmetic.lean ====
section
/-! DEFINITION. Arithmetic and logic: add, mult, mod, and, or, not (44_alu.md). -/

namespace Sys2Proof.Machine

/-- `add dest, b, c` (R170). -/
def execAdd (dest b c : Operand) (s : State) : Host.Outcome State Fault Refusal :=
  runHandler .add s (aluHandler3 .add dest b c)

/-- `mult dest, b, c` (R171). -/
def execMult (dest b c : Operand) (s : State) : Host.Outcome State Fault Refusal :=
  runHandler .mult s (aluHandler3 .mult dest b c)

/-- `mod dest, b, c` (R172). -/
def execMod (dest b c : Operand) (s : State) : Host.Outcome State Fault Refusal :=
  runHandler .mod s (aluHandler3 .mod dest b c)

/-- `and dest, b, c` (R173). -/
def execAnd (dest b c : Operand) (s : State) : Host.Outcome State Fault Refusal :=
  runHandler .and s (aluHandler3 .and dest b c)

/-- `or dest, b, c` (R174). -/
def execOr (dest b c : Operand) (s : State) : Host.Outcome State Fault Refusal :=
  runHandler .or s (aluHandler3 .or dest b c)

/-- `not dest, src`: the complement of the resolved value (R175). -/
def execNot (dest src : Operand) (s : State) : Host.Outcome State Fault Refusal :=
  runHandler .not s (aluHandler2 .not dest src)

end Sys2Proof.Machine
end

