-- ==== Sys2Proof/Machine/Compare.lean ====
section
/-! DEFINITION. Compare instructions: eq, gt (42_compare.md). -/

namespace Sys2Proof.Machine

/-- `eq dest, b, c` (R140). -/
def execEq (dest b c : Operand) (s : State) : Host.Outcome State Fault Refusal :=
  runHandler .eq s (aluHandler3 .eq dest b c)

/-- `gt dest, b, c` (R141). -/
def execGt (dest b c : Operand) (s : State) : Host.Outcome State Fault Refusal :=
  runHandler .gt s (aluHandler3 .gt dest b c)

end Sys2Proof.Machine
end

