-- ==== Sys2Proof/Machine/ControlTransfer.lean ====
section
/-! DEFINITION. Control transfer: jmp, jt, jf, call, ret (43_control_transfer.md). These handlers write the pc
(40_dispatch.md R113); targets are absolute (R159). -/

namespace Sys2Proof.Machine

/-- R150. -/
def jmpHandler (target : Operand) (s : State) : Except Cause HandlerEnd := do
  let t ← s.getOperand target
  return .jump s (cellOfWord t)

/-- R151, R152: the target is resolved only when the jump is taken. -/
def branchHandler (takenWhen : Bool) (cond target : Operand) (s : State) : Except Cause HandlerEnd := do
  let c ← s.getOperand cond
  if isTrue c = takenWhen then jmpHandler target s else return .advance s

/-- R157: the target is resolved before the push, and the value pushed is `pc + 1` of the handler's pc. -/
def callHandler (target : Operand) (s : State) : Except Cause HandlerEnd := do
  let t ← s.getOperand target
  let pushed ← s.push (s.pc + 1)
  return .jump pushed (cellOfWord t)

/-- R158: the popped cell as it is, 32768 included. -/
def retHandler (s : State) : Except Cause HandlerEnd := do
  let (t, popped) ← s.pop
  return .jump popped t

/-- `jmp target` (R150). -/
def execJmp (target : Operand) (s : State) : Host.Outcome State Fault Refusal :=
  runHandler .jmp s (jmpHandler target)

/-- `jt cond, target` (R151). -/
def execJt (cond target : Operand) (s : State) : Host.Outcome State Fault Refusal :=
  runHandler .jt s (branchHandler true cond target)

/-- `jf cond, target` (R152). -/
def execJf (cond target : Operand) (s : State) : Host.Outcome State Fault Refusal :=
  runHandler .jf s (branchHandler false cond target)

/-- `call target` (R157). -/
def execCall (target : Operand) (s : State) : Host.Outcome State Fault Refusal :=
  runHandler .call s (callHandler target)

/-- `ret` (R158). -/
def execRet (s : State) : Host.Outcome State Fault Refusal :=
  runHandler .ret s retHandler

end Sys2Proof.Machine
end

