-- ==== Sys2Proof/Machine/MemoryAccess.lean ====
section
/-! DEFINITION. Memory access: write-mem, read-mem (45_memory_access.md). The one addressing mode is the
resolved `addr` operand (R192). -/

namespace Sys2Proof.Machine

/-- R190: the first operand is the address, the second the data. -/
def writeMemHandler (addr src : Operand) (s : State) : Except Cause HandlerEnd := do
  let a ← s.getOperand addr
  let v ← s.getOperand src
  return .advance (s.memWrite a (cellOfWord v))

/-- R191: the cell goes through the register write port, which faults above 32767. -/
def readMemHandler (dest addr : Operand) (s : State) : Except Cause HandlerEnd := do
  let k ← destOf dest
  let a ← s.getOperand addr
  let t ← s.writeReg k (s.memRead a)
  return .advance t

/-- `write-mem addr, src` (R190). -/
def execWriteMem (addr src : Operand) (s : State) : Host.Outcome State Fault Refusal :=
  runHandler .writeMem s (writeMemHandler addr src)

/-- `read-mem dest, addr` (R191). -/
def execReadMem (dest addr : Operand) (s : State) : Host.Outcome State Fault Refusal :=
  runHandler .readMem s (readMemHandler dest addr)

end Sys2Proof.Machine
end

