-- ==== Sys2Proof/Machine/MoveStack.lean ====
section
/-! DEFINITION. Move and stack instructions: set, push, pop (41_move_and_stack.md). -/

namespace Sys2Proof.Machine

/-- R130. -/
def setHandler (dest src : Operand) (s : State) : Except Cause HandlerEnd := do
  let k ← destOf dest
  let v ← s.getOperand src
  let t ← s.writeReg k (cellOfWord v)
  return .advance t

/-- R131. -/
def pushHandler (src : Operand) (s : State) : Except Cause HandlerEnd := do
  let v ← s.getOperand src
  let t ← s.push (cellOfWord v)
  return .advance t

/-- R132: the destination, then the empty stack, then the range of the tail element. -/
def popHandler (dest : Operand) (s : State) : Except Cause HandlerEnd := do
  let k ← destOf dest
  let (v, popped) ← s.pop
  let t ← popped.writeReg k v
  return .advance t

/-- `set dest, src` (R130). -/
def execSet (dest src : Operand) (s : State) : Host.Outcome State Fault Refusal :=
  runHandler .set s (setHandler dest src)

/-- `push src` (R131). -/
def execPush (src : Operand) (s : State) : Host.Outcome State Fault Refusal :=
  runHandler .push s (pushHandler src)

/-- `pop dest` (R132). -/
def execPop (dest : Operand) (s : State) : Host.Outcome State Fault Refusal :=
  runHandler .pop s (popHandler dest)

end Sys2Proof.Machine
end

