-- ==== Sys2Proof/Machine/SystemIo.lean ====
section
/-! DEFINITION. System and input/output: halt, out, in, noop (46_system_io.md). -/

namespace Sys2Proof.Machine

/-- R200: the run state becomes HALTED; the generic advance follows. -/
def haltHandler (s : State) : Except Cause HandlerEnd :=
  .ok (.advance { s with run := .halted })

/-- R201. -/
def outHandler (src : Operand) (s : State) : Except Cause HandlerEnd := do
  let c ← s.getOperand src
  return .advance (s.emit c)

/-- R202: the destination first, then the input. -/
def inputHandler (dest : Operand) (s : State) : Except Cause HandlerEnd := do
  let k ← destOf dest
  let (c, consumed) ← s.nextInput
  let t ← consumed.writeReg k (cellOfWord c)
  return .advance t

/-- R203. -/
def noopHandler (s : State) : Except Cause HandlerEnd :=
  .ok (.advance s)

/-- `halt` (R200). -/
def execHalt (s : State) : Host.Outcome State Fault Refusal :=
  runHandler .halt s haltHandler

/-- `out src` (R201). -/
def execOut (src : Operand) (s : State) : Host.Outcome State Fault Refusal :=
  runHandler .out s (outHandler src)

/-- `in dest` (R202). -/
def execInput (dest : Operand) (s : State) : Host.Outcome State Fault Refusal :=
  runHandler .input s (inputHandler dest)

/-- `noop` (R203). -/
def execNoop (s : State) : Host.Outcome State Fault Refusal :=
  runHandler .noop s noopHandler

end Sys2Proof.Machine
end

