-- ==== Sys2Proof/Machine/Dispatch.lean ====
section
/-! DEFINITION. The one dispatch from an instruction to its meaning. The state given is the one at the start of the
step: its pc is the address A of the opcode word (00_scope.md R10). -/

namespace Sys2Proof.Machine

def exec (i : Instr) (s : State) : Host.Outcome State Fault Refusal :=
  match i with
  | .halt => Sys2Proof.Machine.execHalt s
  | .set dest src => Sys2Proof.Machine.execSet dest src s
  | .push src => Sys2Proof.Machine.execPush src s
  | .pop dest => Sys2Proof.Machine.execPop dest s
  | .eq dest b c => Sys2Proof.Machine.execEq dest b c s
  | .gt dest b c => Sys2Proof.Machine.execGt dest b c s
  | .jmp target => Sys2Proof.Machine.execJmp target s
  | .jt cond target => Sys2Proof.Machine.execJt cond target s
  | .jf cond target => Sys2Proof.Machine.execJf cond target s
  | .add dest b c => Sys2Proof.Machine.execAdd dest b c s
  | .mult dest b c => Sys2Proof.Machine.execMult dest b c s
  | .mod dest b c => Sys2Proof.Machine.execMod dest b c s
  | .and dest b c => Sys2Proof.Machine.execAnd dest b c s
  | .or dest b c => Sys2Proof.Machine.execOr dest b c s
  | .not dest src => Sys2Proof.Machine.execNot dest src s
  | .writeMem addr src => Sys2Proof.Machine.execWriteMem addr src s
  | .readMem dest addr => Sys2Proof.Machine.execReadMem dest addr s
  | .call target => Sys2Proof.Machine.execCall target s
  | .ret => Sys2Proof.Machine.execRet s
  | .out src => Sys2Proof.Machine.execOut src s
  | .input dest => Sys2Proof.Machine.execInput dest s
  | .noop => Sys2Proof.Machine.execNoop s

end Sys2Proof.Machine
end

