-- ==== Sys2Proof/Machine/Fetch.lean ====
section
/-! DEFINITION. Fetching an instruction (40_dispatch.md R110 to R112), and what the step does when there is none to
run: an unknown opcode (R111), an instruction cut off by the end of memory (R116). -/

namespace Sys2Proof.Machine

/-- Decode what stands at the pc: the opcode word and as many of the three cells after it as memory has. The words
are fetched before any handler runs (R112), so reading them together is the same (notes/assumptions/7.md). -/
def State.fetch (s : State) : Except DecodeError (Instr × List Cell) :=
  decode (s.mem.window s.pc.toNat Config.maxCells)

/-- An unknown opcode: one diagnostic record, `pc <- A + 1`, nothing else (R111). -/
def State.skipUnknown (s : State) (op : Cell) : State :=
  { s.report { addr := s.pc, opcode := op } with pc := s.pc + 1 }

/-- An operand fetch at address 32768: `FetchOutOfRange` with `pc = 32768` (R116, 60_exceptions.md R224). -/
def State.fetchOffEnd (s : State) (op : Opcode) : State :=
  { s with pc := BitVec.ofNat 16 Config.memWords }.raise .fetchOutOfRange (opcodeCell op) s.pc

end Sys2Proof.Machine
end

