-- ==== Sys2Proof/Machine/Load.lean ====
section
/-! DEFINITION. The load port and launch (20_memory.md R55 to R57, 70_reset_and_hazards.md R261, R262). Reading a
file is out of scope (00_scope.md R5); the byte format of one is stated (R56). -/

namespace Sys2Proof.Machine

/-- Store cells at ascending addresses from `a`, as given (R55); an address past the last one has no cell. -/
def Memory.load : Memory → Nat → List Cell → Memory
  | m, _, [] => m
  | m, a, c :: rest => Memory.load (if a < Config.memWords then m.write a c else m) (a + 1) rest

/-- What the load port answers. -/
inductive LoadResult where
  /-- The image is in memory. -/
  | loaded (s : State)
  /-- `LoadRejected`: nothing is stored and no run starts (R57, 60_exceptions.md R243). -/
  | rejected
  deriving DecidableEq, Repr

/-- The load port: `IMAGE` into cells 0, 1, … , or a rejection when it is longer than 32768 words (R55, R57). -/
def State.load (s : State) (image : List Cell) : LoadResult :=
  if image.length ≤ Config.memWords then .loaded { s with mem := s.mem.load 0 image } else .rejected

/-- The launch state: reset, then load (70_reset_and_hazards.md R261, R262). -/
def launch (image : List Cell) (input : Option (List Word)) (depth : Option Nat) : LoadResult :=
  (State.resetWith input depth).load image

/-- The words of an image file, low byte first; none when the number of bytes is odd (R56). -/
def imageOfBytes : List Byte → Option (List Cell)
  | [] => some []
  | [_] => none
  | lo :: hi :: rest =>
    match imageOfBytes rest with
    | none => none
    | some words => some ((hi ++ lo) :: words)

/-- Launch from the bytes of an image file (R56, R243). -/
def launchBytes (file : List Byte) (input : Option (List Word)) (depth : Option Nat) : LoadResult :=
  match imageOfBytes file with
  | none => .rejected
  | some image => launch image input depth

end Sys2Proof.Machine
end

