-- ==== Sys2Proof/Machine/Status.lean ====
section
/-! DEFINITION. When the engine has a step, and what the status port presents (10_state.md R35, R37, R42). -/

namespace Sys2Proof.Machine

/-- The numeric code of a fatal cause (60_exceptions.md R221; code 1 is the non-fatal InvalidOpcode). -/
def Cause.code : Cause → Nat
  | .stackUnderflow => 2
  | .divideOrModByZero => 3
  | .invalidOperand => 4
  | .fetchOutOfRange => 5
  | .registerRangeViolation => 6
  | .inputUnavailable => 7
  | .stackOverflow => 8

/-- The code of the diagnostic InvalidOpcode (R221). -/
def DiagRecord.code (_ : DiagRecord) : Nat := 1

/-- The code the status port shows: 0 when no fault is recorded (R221). -/
def State.faultCode (s : State) : Nat :=
  match s.fault with
  | none => 0
  | some r => r.cause.code

/-- The derived status (10_state.md R37). -/
inductive Status where
  | running
  | halted
  | exhausted
  | faulted (r : FaultRecord)
  deriving DecidableEq, Repr

/-- The status, in the order of R37. -/
def State.status (s : State) : Status :=
  match s.fault with
  | some r => .faulted r
  | none =>
    if s.run = .halted then .halted
    else if s.pc.toNat = Config.memWords then .exhausted
    else .running

/-- The engine has a step exactly when it is RUNNING, no fault is recorded and the pc is below 32768
(R35, 40_dispatch.md R110). -/
def State.hasStep (s : State) : Bool :=
  decide (s.run = .running) && decide (s.fault = none) && decide (s.pc.toNat < Config.memWords)

/-- Why the engine has no step. A pc above 32768, which no run reaches, is named with 32768
(notes/assumptions/6.md). -/
def State.stopReason (s : State) : Fault :=
  match s.fault with
  | some r => .faulted r
  | none => if s.run = .halted then .halted else .exhausted

end Sys2Proof.Machine
end

