-- ==== Sys2Proof/Machine/Step.lean ====
section
/-! DEFINITION. One dispatch step (40_dispatch.md R110). -/

namespace Sys2Proof.Machine

/-- The step of R110: the engine has one exactly when `hasStep`. The decoder's `noOpcode` stands for an opcode fetch
outside memory, which `hasStep` excludes. -/
def step (s : State) : Host.Outcome State Fault Refusal :=
  if s.hasStep then
    match s.fetch with
    | .ok (i, _) => exec i s
    | .error (.unknownOpcode op) => .next (s.skipUnknown op)
    | .error (.truncated op) => .next (s.fetchOffEnd op)
    | .error .noOpcode => .fault .exhausted
  else .fault s.stopReason

/-- `s` with the instruction whose bits are `w` stored at the pc, where the next step fetches
(notes/assumptions/8.md); cells past the last address do not exist and are dropped. -/
def State.withFetchWord (s : State) (nbits w : Nat) : State :=
  { s with mem := s.mem.load s.pc.toNat (tableCells nbits w) }

end Sys2Proof.Machine
end

