-- ==== Sys2Proof/Machine/Run.lean ====
section
/-! DEFINITION. A run under fuel (70_reset_and_hazards.md R264, R273): running out of fuel is not an end. -/

namespace Sys2Proof.Machine

/-- How far a run got. -/
inductive RunResult where
  /-- The run is over, with the status the host reads and the final state (R264, 10_state.md R42). -/
  | ended (status : Status) (s : State)
  /-- The engine still has a step (R273). -/
  | notFinished (s : State)
  deriving DecidableEq, Repr

/-- At most `fuel` steps from a state. -/
def runFor : Nat → State → RunResult
  | 0, s => if s.hasStep then .notFinished s else .ended s.status s
  | fuel + 1, s =>
    match step s with
    | .next t => runFor fuel t
    | .fault _ => .ended s.status s
    | .refused _ => .notFinished s

end Sys2Proof.Machine
end

