-- ==== Sys2Proof/Safety.lean ====
section
/-! DEFINITION. The words that claims about this machine are made of: the invariant, what an instruction keeps, the
state a fault leaves, the ends of a run. They are written from the spec, not from the meanings in Machine/. -/

namespace Sys2Proof.Machine

/-! ## The invariant -/

/-- Every register holds a Word (10_state.md R22). -/
def RegsAreWords (s : State) : Prop := ∀ k : Reg, (s.readReg k).toNat ≤ 32767

/-- The pc is in 0..32768 (10_state.md R26). -/
def PcInRange (s : State) : Prop := s.pc.toNat ≤ 32768

/-- Every stack cell is in 0..32768: a pushed Word or a return address (10_state.md R31, 43_control_transfer.md R158). -/
def StackInRange (s : State) : Prop := ∀ v ∈ s.stack, v.toNat ≤ 32768

/-- A finite stack never holds more cells than `STACK_DEPTH` (10_state.md R31). -/
def StackFits (s : State) : Prop := ∀ depth, s.stackDepth = some depth → s.stack.length ≤ depth

/-- Memory has its canonical form. -/
def MemoryCanonical (s : State) : Prop := s.mem.wf = true

/-- What holds of every state of a run. -/
structure Inv (s : State) : Prop where
  regs : RegsAreWords s
  pc : PcInRange s
  stack : StackInRange s
  fits : StackFits s
  mem : MemoryCanonical s

/-! ## What an operand is, for one state -/

/-- No register word: what `dst` rejects (40_dispatch.md R115). -/
def isNoDest (o : Operand) : Bool :=
  match o with
  | .register _ => false
  | .literal _ => true
  | .invalid _ => true

/-- An invalid word: what `get` rejects (R114). -/
def isInvalid (o : Operand) : Bool :=
  match o with
  | .register _ => false
  | .literal _ => false
  | .invalid _ => true

/-- The operand resolves to a value other than 0. -/
def ResolvesToTrue (s : State) (o : Operand) : Prop := ∃ v, s.getOperand o = .ok v ∧ v ≠ 0

/-- The instruction uses an operand that `get` or `dst` rejects: a value operand that is invalid, a destination
that is no register; the target of a conditional jump only when the jump is taken (60_exceptions.md R230). -/
def UsesBadOperand (s : State) : Instr → Prop
  | .halt => False
  | .set d a => isNoDest d ∨ isInvalid a
  | .push a => isInvalid a
  | .pop d => isNoDest d
  | .eq d b c => isNoDest d ∨ isInvalid b ∨ isInvalid c
  | .gt d b c => isNoDest d ∨ isInvalid b ∨ isInvalid c
  | .jmp t => isInvalid t
  | .jt c t => isInvalid c ∨ (ResolvesToTrue s c ∧ isInvalid t)
  | .jf c t => isInvalid c ∨ (s.getOperand c = .ok 0 ∧ isInvalid t)
  | .add d b c => isNoDest d ∨ isInvalid b ∨ isInvalid c
  | .mult d b c => isNoDest d ∨ isInvalid b ∨ isInvalid c
  | .mod d b c => isNoDest d ∨ isInvalid b ∨ isInvalid c
  | .and d b c => isNoDest d ∨ isInvalid b ∨ isInvalid c
  | .or d b c => isNoDest d ∨ isInvalid b ∨ isInvalid c
  | .not d a => isNoDest d ∨ isInvalid a
  | .writeMem a v => isInvalid a ∨ isInvalid v
  | .readMem d a => isNoDest d ∨ isInvalid a
  | .call t => isInvalid t
  | .ret => False
  | .out a => isInvalid a
  | .input d => isNoDest d
  | .noop => False

/-- The stack takes one more cell: it is unbounded, or it holds fewer than `STACK_DEPTH` cells (10_state.md R31). -/
def HasStackRoom (s : State) : Prop :=
  s.stackDepth = none ∨ ∃ depth, s.stackDepth = some depth ∧ s.stack.length < depth

/-- The instruction, run in `s`, writes the pc itself, with this target (40_dispatch.md R113). -/
def TransfersTo (s : State) (i : Instr) (target : Cell) : Prop :=
  match i with
  | .jmp t => ∃ v, s.getOperand t = .ok v ∧ target = BitVec.ofNat 16 v.toNat
  | .jt c t => ResolvesToTrue s c ∧ ∃ v, s.getOperand t = .ok v ∧ target = BitVec.ofNat 16 v.toNat
  | .jf c t => s.getOperand c = .ok 0 ∧ ∃ v, s.getOperand t = .ok v ∧ target = BitVec.ofNat 16 v.toNat
  | .call t => ∃ v, s.getOperand t = .ok v ∧ target = BitVec.ofNat 16 v.toNat
  | .ret => s.stack.getLast? = some target
  | .halt => False
  | .set _ _ => False
  | .push _ => False
  | .pop _ => False
  | .eq _ _ _ => False
  | .gt _ _ _ => False
  | .add _ _ _ => False
  | .mult _ _ _ => False
  | .mod _ _ _ => False
  | .and _ _ _ => False
  | .or _ _ _ => False
  | .not _ _ => False
  | .writeMem _ _ => False
  | .readMem _ _ => False
  | .out _ => False
  | .input _ => False
  | .noop => False

/-! ## The state a fault leaves -/

/-- The state after a fault raised in the handler of `i`, run at the pc of `s`: the record, `pc = A + n`, and nothing
else changed (60_exceptions.md R229). -/
def faultState (i : Instr) (s : State) (cause : Cause) : State :=
  { s with
    pc := s.pc + BitVec.ofNat 16 i.opcode.arity
    fault := some { cause := cause, opcode := opcodeCell i.opcode, addr := s.pc } }

/-- The cells of `i` stand in memory from the pc on, all of them inside memory. -/
def CellsAt (s : State) (i : Instr) : Prop :=
  s.pc.toNat + (encode i).length ≤ 32768 ∧
    ∀ j, (h : j < (encode i).length) → s.mem.read (s.pc.toNat + j) = (encode i)[j]

/-! ## Frames: what is kept from `s` to `t` -/

/-- Every cell of memory reads as before. -/
def KeepsMemory (s t : State) : Prop := ∀ a : Word, t.memRead a = s.memRead a

/-- Every register but the destination, if that is a register, reads as before. -/
def KeepsRegsBut (dest : Operand) (s t : State) : Prop :=
  ∀ k : Reg, dest ≠ .register k → t.readReg k = s.readReg k

/-- Every register reads as before. -/
def KeepsRegs (s t : State) : Prop := ∀ k : Reg, t.readReg k = s.readReg k

/-- The output stream, the diagnostic channel and the input stream are as before. -/
def KeepsStreams (s t : State) : Prop := t.out = s.out ∧ t.diag = s.diag ∧ t.inp = s.inp

/-- The run state and the launch parameter are as before. -/
def KeepsRun (s t : State) : Prop := t.run = s.run ∧ t.stackDepth = s.stackDepth

/-- The fault record is as before, or was written for this instruction at its own address (60_exceptions.md R229). -/
def FaultOnlyOf (i : Instr) (s t : State) : Prop :=
  t.fault = s.fault ∨ ∃ cause, t.fault = some { cause := cause, opcode := opcodeCell i.opcode, addr := s.pc }

/-! ## The ends of a run (70_reset_and_hazards.md R264) -/

/-- A successful end: HALTED. -/
def SuccessfulEnd (s : State) : Prop := s.status = .halted

/-- A successful end under either policy for unknown opcodes: no diagnostic record stands
(93_implementation_defined.md U5). -/
def CleanEnd (s : State) : Prop := SuccessfulEnd s ∧ s.diag = []

end Sys2Proof.Machine
end

