-- ==== Sys2Proof/Certificates/Slice0/Obligations.lean ====
section
/-! DEFINITION. The statements for the provers. OBLIGATIONS.json gives each its tier, its title and the rules of spec/
it rests on. -/

open Sys2Proof Sys2Proof.Machine

/-! ## Encoding -/

/-- Decoding the cells of a well-formed instruction gives it back, whatever follows (30_encoding.md R80, R82, R86). -/
def Obligations.DecodeOfEncode : Prop :=
  ∀ (i : Instr) (rest : List Cell), i.wellFormed = true → decode (encode i ++ rest) = .ok (i, rest)

/-- Every list of cells that decodes is the encoding of the instruction read, which is well formed, and what was left
over: no two lists of cells are one instruction (R80, R82, R88). -/
def Obligations.EncodeOfDecode : Prop :=
  ∀ (cells : List Cell) (i : Instr) (rest : List Cell),
    decode cells = .ok (i, rest) → i.wellFormed = true ∧ cells = encode i ++ rest

/-- The encoding examples of R97, both ways. -/
def Obligations.EncodingExamples : Prop :=
  encode (.out (.literal 65)) = [19, 65] ∧ encode .halt = [0] ∧
    encode (.add (.register 0) (.literal 10) (.literal 5)) = [9, 32768, 10, 5] ∧
    decode [19, 65] = .ok (.out (.literal 65), []) ∧ decode [0] = .ok (.halt, []) ∧
    decode [9, 32768, 10, 5] = .ok (.add (.register 0) (.literal 10) (.literal 5), [])

/-- The opcode table, row by row: the opcode number, the number of operand cells and their order (R86). -/
def Obligations.OpcodeTableDecodes : Prop :=
  ∀ (w1 w2 w3 : Cell) (rest : List Cell),
    decode (0 :: rest) = .ok (.halt, rest) ∧
    decode (1 :: w1 :: w2 :: rest) = .ok (.set (operandOf w1) (operandOf w2), rest) ∧
    decode (2 :: w1 :: rest) = .ok (.push (operandOf w1), rest) ∧
    decode (3 :: w1 :: rest) = .ok (.pop (operandOf w1), rest) ∧
    decode (4 :: w1 :: w2 :: w3 :: rest) = .ok (.eq (operandOf w1) (operandOf w2) (operandOf w3), rest) ∧
    decode (5 :: w1 :: w2 :: w3 :: rest) = .ok (.gt (operandOf w1) (operandOf w2) (operandOf w3), rest) ∧
    decode (6 :: w1 :: rest) = .ok (.jmp (operandOf w1), rest) ∧
    decode (7 :: w1 :: w2 :: rest) = .ok (.jt (operandOf w1) (operandOf w2), rest) ∧
    decode (8 :: w1 :: w2 :: rest) = .ok (.jf (operandOf w1) (operandOf w2), rest) ∧
    decode (9 :: w1 :: w2 :: w3 :: rest) = .ok (.add (operandOf w1) (operandOf w2) (operandOf w3), rest) ∧
    decode (10 :: w1 :: w2 :: w3 :: rest) = .ok (.mult (operandOf w1) (operandOf w2) (operandOf w3), rest) ∧
    decode (11 :: w1 :: w2 :: w3 :: rest) = .ok (.mod (operandOf w1) (operandOf w2) (operandOf w3), rest) ∧
    decode (12 :: w1 :: w2 :: w3 :: rest) = .ok (.and (operandOf w1) (operandOf w2) (operandOf w3), rest) ∧
    decode (13 :: w1 :: w2 :: w3 :: rest) = .ok (.or (operandOf w1) (operandOf w2) (operandOf w3), rest) ∧
    decode (14 :: w1 :: w2 :: rest) = .ok (.not (operandOf w1) (operandOf w2), rest) ∧
    decode (15 :: w1 :: w2 :: rest) = .ok (.writeMem (operandOf w1) (operandOf w2), rest) ∧
    decode (16 :: w1 :: w2 :: rest) = .ok (.readMem (operandOf w1) (operandOf w2), rest) ∧
    decode (17 :: w1 :: rest) = .ok (.call (operandOf w1), rest) ∧
    decode (18 :: rest) = .ok (.ret, rest) ∧
    decode (19 :: w1 :: rest) = .ok (.out (operandOf w1), rest) ∧
    decode (20 :: w1 :: rest) = .ok (.input (operandOf w1), rest) ∧
    decode (21 :: rest) = .ok (.noop, rest)

/-- Exactly the opcode words 22..65535 are unknown, whatever follows (R90; that the register range is among them is the
spec's decision D30). -/
def Obligations.UnknownOpcodesRefused : Prop :=
  ∀ (op : Cell) (rest : List Cell), decode (op :: rest) = .error (.unknownOpcode op) ↔ 22 ≤ op.toNat

/-- The three classes of an operand word, by the decimal ranges of R82, which leave no word out; and `dst`, which takes
the register class and only it (R115; the fault for the other words is the spec's decision D3). -/
def Obligations.OperandWordClasses : Prop :=
  ∀ w : Cell,
    (w.toNat ≤ 32767 → (∃ v : Word, operandOf w = .literal v ∧ v.toNat = w.toNat) ∧
      destOf (operandOf w) = .error .invalidOperand) ∧
    (∀ k : Reg, w.toNat = 32768 + k.val → operandOf w = .register k ∧ destOf (operandOf w) = .ok k) ∧
    (32776 ≤ w.toNat → operandOf w = .invalid w ∧ destOf (operandOf w) = .error .invalidOperand)

/-! ## Operands, memory, arithmetic -/

/-- R114, whole: a literal word is returned unchanged, a register word gives the register's current value, any other
word is an InvalidOperand; the register file is all that is read, so resolving again with no register written between
gives the same. The premise is the invariant of R22. -/
def Obligations.GetResolvesOperands : Prop :=
  ∀ (s : State) (w : Cell), RegsAreWords s →
    (w.toNat ≤ 32767 → ∃ v, s.getOperand (operandOf w) = .ok v ∧ v.toNat = w.toNat) ∧
    (∀ k : Reg, w.toNat = 32768 + k.val →
      ∃ v, s.getOperand (operandOf w) = .ok v ∧ v.toNat = (s.readReg k).toNat) ∧
    (32776 ≤ w.toNat → s.getOperand (operandOf w) = .error .invalidOperand) ∧
    (∀ t : State, t.regs = s.regs → t.getOperand (operandOf w) = s.getOperand (operandOf w))

/-- R53, whole: `MemWrite` sets one cell and changes nothing else, and at run time only `write-mem` writes memory, at its
resolved address with its resolved value, a Word. -/
def Obligations.MemWriteSetsOneCell : Prop :=
  (∀ (s : State) (a : Word) (v : Cell),
    (∀ b : Word, (s.memWrite a v).memRead b = if b = a then v else s.memRead b) ∧
    s.memWrite a v = { s with mem := (s.memWrite a v).mem }) ∧
  ∀ s t : State, step s = .next t → t.mem = s.mem ∨
    ∃ addr src rest a v, s.fetch = .ok (.writeMem addr src, rest) ∧ s.getOperand addr = .ok a ∧
      s.getOperand src = .ok v ∧ t.mem = (s.memWrite a (BitVec.ofNat 16 v.toNat)).mem

/-- Two memories in canonical form that read the same at every address are the same data. -/
def Obligations.CanonicalMemoriesAgree : Prop :=
  ∀ m n : Memory, m.wf = true → n.wf = true → (∀ a : Word, m.read a.toNat = n.read a.toNat) → m = n

/-- The exact results of R176, for all Words. -/
def Obligations.AluExactResults : Prop :=
  ∀ b c : Word,
    (∃ r, alu .add b c = some r ∧ r.toNat = (b.toNat + c.toNat) % 32768) ∧
    (∃ r, alu .mult b c = some r ∧ r.toNat = (b.toNat * c.toNat) % 32768) ∧
    (c ≠ 0 → ∃ r, alu .mod b c = some r ∧ r.toNat = b.toNat % c.toNat) ∧
    (aluResult .mod b 0 = .error .divideOrModByZero) ∧
    (∃ r, alu .and b c = some r ∧ ∀ i, r.getLsbD i = (b.getLsbD i && c.getLsbD i)) ∧
    (∃ r, alu .or b c = some r ∧ ∀ i, r.getLsbD i = (b.getLsbD i || c.getLsbD i)) ∧
    (∃ r, alu .not b c = some r ∧ r.toNat = 32767 - b.toNat) ∧
    (alu .eq b c = some (if b.toNat = c.toNat then 1 else 0)) ∧
    (alu .gt b c = some (if b.toNat > c.toNat then 1 else 0))

/-! ## Results: each instruction completes with these effects and no other -/

/-- `set` (R130): the register holds the value, `pc = A + 3`, nothing else changes. -/
def Obligations.SetWritesRegister : Prop :=
  ∀ (s : State) (k : Reg) (src : Operand) (v : Word), s.getOperand src = .ok v →
    exec (.set (.register k) src) s =
      .next { s with regs := s.regs.set k (BitVec.ofNat 16 v.toNat), pc := s.pc + 3 }

/-- `push` (R131): the value at the tail of the stack, `pc = A + 2`, when the stack has room. -/
def Obligations.PushAppendsValue : Prop :=
  ∀ (s : State) (src : Operand) (v : Word), s.getOperand src = .ok v → HasStackRoom s →
    exec (.push src) s = .next { s with stack := s.stack ++ [BitVec.ofNat 16 v.toNat], pc := s.pc + 2 }

/-- `pop` (R132): the tail element in the register, `pc = A + 2`, when it is a Word. -/
def Obligations.PopTakesTail : Prop :=
  ∀ (s : State) (k : Reg) (below : List Cell) (v : Cell), s.stack = below ++ [v] → v.toNat ≤ 32767 →
    exec (.pop (.register k)) s = .next { s with regs := s.regs.set k v, stack := below, pc := s.pc + 2 }

/-- `eq` and `gt` (R140, R141): 1 or 0 by the resolved values, unsigned, `pc = A + 4`. -/
def Obligations.ComparesWriteOneOrZero : Prop :=
  ∀ (s : State) (k : Reg) (b c : Operand) (x y : Word), s.getOperand b = .ok x → s.getOperand c = .ok y →
    exec (.eq (.register k) b c) s =
      .next { s with regs := s.regs.set k (if x.toNat = y.toNat then 1 else 0), pc := s.pc + 4 } ∧
    exec (.gt (.register k) b c) s =
      .next { s with regs := s.regs.set k (if x.toNat > y.toNat then 1 else 0), pc := s.pc + 4 }

/-- `jmp`, `jt` and `jf` (R150 to R152): taken, the pc is the resolved target; not taken, it is `A + 3` whatever the target
word is (the spec's decision D27). -/
def Obligations.JumpsGoToTarget : Prop :=
  ∀ (s : State) (cond target : Operand) (c : Word), s.getOperand cond = .ok c →
    (∀ v : Word, s.getOperand target = .ok v →
      exec (.jmp target) s = .next { s with pc := BitVec.ofNat 16 v.toNat } ∧
      (c ≠ 0 → exec (.jt cond target) s = .next { s with pc := BitVec.ofNat 16 v.toNat }) ∧
      (c = 0 → exec (.jf cond target) s = .next { s with pc := BitVec.ofNat 16 v.toNat })) ∧
    (c = 0 → exec (.jt cond target) s = .next { s with pc := s.pc + 3 }) ∧
    (c ≠ 0 → exec (.jf cond target) s = .next { s with pc := s.pc + 3 })

/-- `call` (R157): pushes `A + 2`, unreduced, and goes to the resolved target, when the stack has room. -/
def Obligations.CallPushesReturnAddress : Prop :=
  ∀ (s : State) (target : Operand) (v : Word), s.getOperand target = .ok v → HasStackRoom s →
    exec (.call target) s =
      .next { s with stack := s.stack ++ [s.pc + 2], pc := BitVec.ofNat 16 v.toNat }

/-- `ret` (R158): the pc is the popped cell, whatever it is. -/
def Obligations.RetPopsPc : Prop :=
  ∀ (s : State) (below : List Cell) (v : Cell), s.stack = below ++ [v] →
    exec .ret s = .next { s with stack := below, pc := v }

/-- `add`, `mult`, `mod` (R170 to R172): the exact sum and product modulo 32768, the remainder by a divisor other than 0,
`pc = A + 4`. -/
def Obligations.ArithmeticIsExactModulo : Prop :=
  ∀ (s : State) (k : Reg) (b c : Operand) (x y : Word), s.getOperand b = .ok x → s.getOperand c = .ok y →
    exec (.add (.register k) b c) s =
      .next { s with regs := s.regs.set k (BitVec.ofNat 16 ((x.toNat + y.toNat) % 32768)), pc := s.pc + 4 } ∧
    exec (.mult (.register k) b c) s =
      .next { s with regs := s.regs.set k (BitVec.ofNat 16 ((x.toNat * y.toNat) % 32768)), pc := s.pc + 4 } ∧
    (y ≠ 0 → exec (.mod (.register k) b c) s =
      .next { s with regs := s.regs.set k (BitVec.ofNat 16 (x.toNat % y.toNat)), pc := s.pc + 4 })

/-- `and`, `or` (R173, R174) and `not` (R175, of the resolved value: the spec's decision D13). -/
def Obligations.LogicWorksOnFifteenBits : Prop :=
  ∀ (s : State) (k : Reg) (b c : Operand) (x y : Word), s.getOperand b = .ok x → s.getOperand c = .ok y →
    exec (.and (.register k) b c) s =
      .next { s with regs := s.regs.set k (BitVec.ofNat 16 (x.toNat &&& y.toNat)), pc := s.pc + 4 } ∧
    exec (.or (.register k) b c) s =
      .next { s with regs := s.regs.set k (BitVec.ofNat 16 (x.toNat ||| y.toNat)), pc := s.pc + 4 } ∧
    exec (.not (.register k) b) s =
      .next { s with regs := s.regs.set k (BitVec.ofNat 16 (32767 - x.toNat)), pc := s.pc + 3 }

/-- `write-mem` (R190): the cell at the resolved first operand holds the resolved second, every other cell reads as
before, `pc = A + 3`, nothing else changes. -/
def Obligations.WriteMemStoresCell : Prop :=
  ∀ (s : State) (addr src : Operand) (a v : Word), s.getOperand addr = .ok a → s.getOperand src = .ok v →
    ∃ t, exec (.writeMem addr src) s = .next t ∧ t = { s with mem := t.mem, pc := s.pc + 3 } ∧
      (t.memRead a).toNat = v.toNat ∧ ∀ b : Word, b ≠ a → t.memRead b = s.memRead b

/-- `read-mem` (R191): the register holds the cell, when that is a Word, `pc = A + 3`. -/
def Obligations.ReadMemLoadsCell : Prop :=
  ∀ (s : State) (k : Reg) (addr : Operand) (a : Word), s.getOperand addr = .ok a → (s.memRead a).toNat ≤ 32767 →
    exec (.readMem (.register k) addr) s = .next { s with regs := s.regs.set k (s.memRead a), pc := s.pc + 3 }

/-- `halt` (R200): the run state is HALTED and `pc = A + 1` (the spec's decision D8), nothing else changes; a cell 0, such
as one never written, is a `halt`, and after it there is no further step. -/
def Obligations.HaltStopsTheRun : Prop :=
  ∀ s : State,
    exec .halt s = .next { s with run := .halted, pc := s.pc + 1 } ∧
    (s.hasStep = true → s.mem.read s.pc.toNat = 0 →
      ∃ t, step s = .next t ∧ t = { s with run := .halted, pc := s.pc + 1 } ∧ SuccessfulEnd t ∧
        step t = .fault .halted)

/-- `noop` (R203), whole: its cell is `[21]`, and there is no state change besides the generic advance. -/
def Obligations.NoopOnlyAdvances : Prop :=
  encode .noop = [21] ∧ ∀ s : State,
    exec .noop s = .next { s with pc := s.pc + 1 } ∧
    (s.hasStep = true → s.mem.read s.pc.toNat = 21 → step s = .next { s with pc := s.pc + 1 })

/-- `out` (R201): the resolved code, whole, at the end of the output stream, `pc = A + 2`. -/
def Obligations.OutEmitsCode : Prop :=
  ∀ (s : State) (src : Operand) (v : Word), s.getOperand src = .ok v →
    exec (.out src) s = .next { s with out := s.out ++ [v], pc := s.pc + 2 }

/-- `in` (R202): the next Word of the input stream in the register, and consumed, `pc = A + 2`. -/
def Obligations.InConsumesOneCode : Prop :=
  ∀ (s : State) (k : Reg) (c : Word) (more : List Word), s.inp = some (c :: more) →
    exec (.input (.register k)) s =
      .next { s with regs := s.regs.set k (BitVec.ofNat 16 c.toNat), inp := some more, pc := s.pc + 2 }

/-! ## Faults

The state a fault leaves rests on the spec's decisions D9 and D11, so these are derived. -/

/-- InvalidOperand (R230): raised exactly by the uses of a bad operand, before any other condition of the instruction
(R231, decisions D3, D10, D27). -/
def Obligations.BadOperandFaults : Prop :=
  ∀ (s : State) (i : Instr),
    (UsesBadOperand s i → exec i s = .next (faultState i s .invalidOperand)) ∧
    (∀ (t : State) (r : FaultRecord), s.fault = none → exec i s = .next t → t.fault = some r →
      r.cause = .invalidOperand → UsesBadOperand s i)

/-- StackUnderflow (R222): `pop` to a register, and `ret`, on an empty stack. -/
def Obligations.EmptyStackFaults : Prop :=
  ∀ (s : State) (k : Reg), s.stack = [] →
    exec (.pop (.register k)) s = .next (faultState (.pop (.register k)) s .stackUnderflow) ∧
    exec .ret s = .next (faultState .ret s .stackUnderflow)

/-- DivideOrModByZero (R223): `mod` whose resolved divisor is 0, the dividend any value. -/
def Obligations.ZeroDivisorFaults : Prop :=
  ∀ (s : State) (k : Reg) (b c : Operand) (x : Word), s.getOperand b = .ok x → s.getOperand c = .ok 0 →
    exec (.mod (.register k) b c) s = .next (faultState (.mod (.register k) b c) s .divideOrModByZero)

/-- RegisterRangeViolation (R225, decision D4): `read-mem` of a cell, and `pop` of a stack cell, above 32767. -/
def Obligations.WideValueFaults : Prop :=
  (∀ (s : State) (k : Reg) (addr : Operand) (a : Word), s.getOperand addr = .ok a → 32768 ≤ (s.memRead a).toNat →
    exec (.readMem (.register k) addr) s =
      .next (faultState (.readMem (.register k) addr) s .registerRangeViolation)) ∧
  ∀ (s : State) (k : Reg) (below : List Cell) (v : Cell), s.stack = below ++ [v] → 32768 ≤ v.toNat →
    exec (.pop (.register k)) s = .next (faultState (.pop (.register k)) s .registerRangeViolation)

/-- InputUnavailable (R228, decision D19): `in` to a register with no input stream or none left. -/
def Obligations.NoInputFaults : Prop :=
  ∀ (s : State) (k : Reg), s.inp = none ∨ s.inp = some [] →
    exec (.input (.register k)) s = .next (faultState (.input (.register k)) s .inputUnavailable)

/-- StackOverflow (R227, decision D16): `push` and `call` on a stack that already holds `STACK_DEPTH` cells. -/
def Obligations.FullStackFaults : Prop :=
  ∀ (s : State) (o : Operand) (v : Word) (depth : Nat), s.getOperand o = .ok v → s.stackDepth = some depth →
    depth ≤ s.stack.length →
    exec (.push o) s = .next (faultState (.push o) s .stackOverflow) ∧
    exec (.call o) s = .next (faultState (.call o) s .stackOverflow)

/-- FetchOutOfRange (R224, R116, decision D6): an instruction whose operands reach past address 32767 runs no handler; the
record is written, `pc = 32768`, nothing else changes. -/
def Obligations.FetchPastEndFaults : Prop :=
  ∀ (s : State) (op : Opcode), s.hasStep = true → opcodeOf (s.mem.read s.pc.toNat) = some op →
    32767 < s.pc.toNat + op.arity →
    step s = .next { s with
      pc := 32768
      fault := some { cause := .fetchOutOfRange, opcode := s.mem.read s.pc.toNat, addr := s.pc } }

/-- Faults are precise (R229, R235, decisions D9, D11): a step that records a fault changes the pc and the record and
nothing else; the record names the opcode word and its address, and the pc is `A + n`, or 32768 for a fetch off the
end. -/
def Obligations.FaultsArePrecise : Prop :=
  ∀ s t : State, step s = .next t → t.fault ≠ none →
    ∃ (cause : Cause) (pc : Cell),
      t = { s with
        pc := pc
        fault := some { cause := cause, opcode := s.mem.read s.pc.toNat, addr := s.pc } } ∧
      ((cause = .fetchOutOfRange ∧ pc = 32768) ∨
        (cause ≠ .fetchOutOfRange ∧ ∃ i rest, s.fetch = .ok (i, rest) ∧
          pc = s.pc + BitVec.ofNat 16 i.opcode.arity))

/-- Which instructions raise which cause (the table of R221): every other cause of a fault is impossible. -/
def Obligations.FaultCausesByInstruction : Prop :=
  ∀ (s t : State) (i : Instr) (r : FaultRecord), s.fault = none → exec i s = .next t → t.fault = some r →
    match r.cause with
    | .stackUnderflow => i.opcode = .pop ∨ i.opcode = .ret
    | .divideOrModByZero => i.opcode = .mod
    | .invalidOperand => i.opcode ≠ .halt ∧ i.opcode ≠ .ret ∧ i.opcode ≠ .noop
    | .fetchOutOfRange => False
    | .registerRangeViolation => i.opcode = .readMem ∨ i.opcode = .pop
    | .inputUnavailable => i.opcode = .input
    | .stackOverflow => (i.opcode = .push ∨ i.opcode = .call) ∧ s.stackDepth ≠ none

/-! ## The step -/

/-- When the cells at the pc decode to an instruction, the step is that instruction's meaning and nothing around it:
stated for what the fetch reads, and for a well-formed instruction whose cells stand at the pc (R110). -/
def Obligations.StepRunsDecodedInstruction : Prop :=
  (∀ (s : State) (i : Instr) (rest : List Cell), s.hasStep = true → s.fetch = .ok (i, rest) → step s = exec i s) ∧
  ∀ (s : State) (i : Instr), s.hasStep = true → i.wellFormed = true → CellsAt s i → step s = exec i s

/-- The engine has a step exactly when it is RUNNING with no fault recorded and a pc below 32768; otherwise the step
names why, and no step is ever refused (R110, 10_state.md R35). -/
def Obligations.StepsExactlyWhileRunning : Prop :=
  ∀ s : State,
    ((∃ t, step s = .next t) ↔ s.run = .running ∧ s.fault = none ∧ s.pc.toNat < 32768) ∧
    (∀ r, s.fault = some r → step s = .fault (.faulted r)) ∧
    (s.fault = none → s.run = .halted → step s = .fault .halted) ∧
    (s.fault = none → s.run = .running → s.pc = 32768 → step s = .fault .exhausted) ∧
    (∀ r, step s ≠ .refused r)

/-- An unknown opcode (R111): one diagnostic record, `pc = A + 1`, nothing else (the record's fields are the spec's
decision D28, that it is not fatal D14). -/
def Obligations.UnknownOpcodeSkips : Prop :=
  ∀ s : State, s.hasStep = true → 22 ≤ (s.mem.read s.pc.toNat).toNat →
    step s = .next { s with
      diag := s.diag ++ [{ addr := s.pc, opcode := s.mem.read s.pc.toNat }]
      pc := s.pc + 1 }

/-- The generic advance (R113): an instruction that completes either writes the pc itself, with its own target, or leaves
`pc = A + n + 1`; never both, never neither. -/
def Obligations.GenericAdvanceOrTransfer : Prop :=
  ∀ (s t : State) (i : Instr), s.fault = none → exec i s = .next t → t.fault = none →
    (∀ target, TransfersTo s i target → t.pc = target) ∧
    ((∀ target, ¬ TransfersTo s i target) → t.pc = s.pc + BitVec.ofNat 16 i.opcode.arity + 1)

/-- The run state (R34), whole: RUNNING after reset; HALTED exactly by `halt`; terminal; read by no instruction. -/
def Obligations.OnlyHaltHalts : Prop :=
  (∀ input depth, (State.resetWith input depth).run = .running) ∧
  (∀ s t : State, step s = .next t → (t.run = .halted ↔ ∃ rest, s.fetch = .ok (.halt, rest))) ∧
  (∀ s : State, s.run = .halted → ∀ t, step s ≠ .next t) ∧
  (∀ (s t : State) (i : Instr) (r : RunState), exec i s = .next t →
    exec i { s with run := r } = .next { t with run := if i = .halt then .halted else r })

/-- Registers (R24): a step that changes a register fetched one of the twelve writers, with that register as its
destination. -/
def Obligations.OnlyWritersChangeRegisters : Prop :=
  ∀ (s t : State) (k : Reg), step s = .next t → t.readReg k ≠ s.readReg k →
    ∃ i rest, s.fetch = .ok (i, rest) ∧ i.operands.head? = some (.register k) ∧
      i.opcode ∈ [.set, .pop, .eq, .gt, .add, .mult, .mod, .and, .or, .not, .readMem, .input]

/-- The stack (R33): a step that changes it fetched `push` or `call`, which add one cell at the tail, or `pop` or `ret`,
which remove the tail. -/
def Obligations.OnlyStackInstructionsChangeStack : Prop :=
  ∀ s t : State, step s = .next t → t.stack ≠ s.stack →
    ∃ i rest, s.fetch = .ok (i, rest) ∧
      (((i.opcode = .push ∨ i.opcode = .call) ∧ ∃ v, t.stack = s.stack ++ [v]) ∨
        ((i.opcode = .pop ∨ i.opcode = .ret) ∧ ∃ v, s.stack = t.stack ++ [v]))

/-- The streams (R39, R40, R41): only `out` adds to the output, one code at the end; only an unknown opcode adds a
diagnostic; only `in` takes input, one code from the front. -/
def Obligations.StreamsChangeOnlyByTheirInstruction : Prop :=
  ∀ s t : State, step s = .next t →
    (t.out ≠ s.out → ∃ src rest v, s.fetch = .ok (.out src, rest) ∧ t.out = s.out ++ [v]) ∧
    (t.diag ≠ s.diag → ∃ op, s.fetch = .error (.unknownOpcode op) ∧
      t.diag = s.diag ++ [{ addr := s.pc, opcode := op }]) ∧
    (t.inp ≠ s.inp → ∃ dest rest c more, s.fetch = .ok (.input dest, rest) ∧ s.inp = some (c :: more) ∧
      t.inp = some more)

/-- Nothing reads the output stream or the diagnostic channel back (R39, R41): two states that differ only there step
to states that differ only there. -/
def Obligations.OutputNeverReadBack : Prop :=
  ∀ (s t : State) (out : List Word) (diag : List DiagRecord), step s = .next t →
    ∃ newOut newDiag, t.out = s.out ++ newOut ∧ t.diag = s.diag ++ newDiag ∧
      step { s with out := out, diag := diag } = .next { t with out := out ++ newOut, diag := diag ++ newDiag }

/-- The invariant is kept by every step, from every state that meets it. -/
def Obligations.StepKeepsInvariant : Prop := ∀ s t : State, Inv s → step s = .next t → Inv t

/-- Reset meets the invariant, whatever the launch arguments. -/
def Obligations.ResetMeetsInvariant : Prop :=
  Inv State.reset ∧ ∀ (input : Option (List Word)) (depth : Option Nat), Inv (State.resetWith input depth)

/-- Every launch state meets the invariant, whatever the image (70_reset_and_hazards.md R262). -/
def Obligations.LaunchMeetsInvariant : Prop :=
  ∀ (image : List Cell) (input : Option (List Word)) (depth : Option Nat) (s : State),
    launch image input depth = .loaded s → Inv s

/-- R22, whole: every register is a 16-bit cell that holds a Word after reset, after launch and after every step, with no
premise on the rest of the state: bit 15 is 0 and a read is in 0..32767. -/
def Obligations.RegistersAlwaysHoldWords : Prop :=
  (∀ input depth, ∀ k : Reg, ((State.resetWith input depth).readReg k).getLsbD 15 = false ∧
    ((State.resetWith input depth).readReg k).toNat ≤ 32767) ∧
  (∀ image input depth s, launch image input depth = .loaded s →
    ∀ k : Reg, (s.readReg k).getLsbD 15 = false ∧ (s.readReg k).toNat ≤ 32767) ∧
  ∀ s t : State, (∀ k : Reg, (s.readReg k).getLsbD 15 = false) → step s = .next t →
    ∀ k : Reg, (t.readReg k).getLsbD 15 = false ∧ (t.readReg k).toNat ≤ 32767

/-! ## Reset, load, status -/

/-- The reset values of 10_state.md R43, for every `INPUT`; that `State.reset` takes `INPUT` none is the model's choice
(notes/assumptions/2.md). -/
def Obligations.ResetValues : Prop :=
  ∀ (input : Option (List Word)) (depth : Option Nat),
    let s := State.resetWith input depth
    (∀ k : Reg, s.readReg k = 0) ∧ (∀ a : Word, s.memRead a = 0) ∧ s.stack = [] ∧ s.pc = 0 ∧ s.run = .running ∧
      s.fault = none ∧ s.out = [] ∧ s.diag = [] ∧ s.inp = input ∧ s.stackDepth = depth ∧
      State.reset = State.resetWith none none

/-- The load (20_memory.md R55), whole: cells 0..L-1 hold the image as given, the others 0, and all else is as after
reset. -/
def Obligations.LoadPlacesImage : Prop :=
  ∀ (image : List Cell) (input : Option (List Word)) (depth : Option Nat), image.length ≤ 32768 →
    ∃ s, launch image input depth = .loaded s ∧
      (∀ k, (h : k < image.length) → s.mem.read k = image[k]) ∧
      (∀ k, image.length ≤ k → k < 32768 → s.mem.read k = 0) ∧
      s = { State.resetWith input depth with mem := s.mem }

/-- The images (R56, R57, 60_exceptions.md R243): word k of a file is byte 2k plus 256 times byte 2k + 1; a file of an odd
number of bytes and an image longer than 32768 words are rejected (the spec's decisions D17, D18). -/
def Obligations.ImageFormatAndRejection : Prop :=
  (∀ file : List Byte, file.length % 2 = 0 →
    ∃ image, imageOfBytes file = some image ∧ 2 * image.length = file.length ∧
      ∀ k, (h : k < image.length) → (h0 : 2 * k < file.length) → (h1 : 2 * k + 1 < file.length) →
        image[k].toNat = file[2 * k].toNat + 256 * file[2 * k + 1].toNat) ∧
  (∀ (file : List Byte) (input : Option (List Word)) (depth : Option Nat), file.length % 2 = 1 →
    launchBytes file input depth = .rejected) ∧
  ∀ (image : List Cell) (input : Option (List Word)) (depth : Option Nat), 32768 < image.length →
    launch image input depth = .rejected

/-- A run under fuel (70_reset_and_hazards.md R264, R273): it is reported as ended only where the engine has no step, with
the status of that state, and as not finished only where a step remains; and the status (10_state.md R37) is RUNNING exactly
when there is a step, in every state whose pc is in range. -/
def Obligations.RunEndsOnlyWithoutStep : Prop :=
  (∀ s : State, PcInRange s → (s.status = .running ↔ ∃ t, step s = .next t)) ∧
  ∀ (fuel : Nat) (s t : State),
    (∀ status, runFor fuel s = .ended status t → t.hasStep = false ∧ status = t.status) ∧
    (runFor fuel s = .notFinished t → t.hasStep = true)

/-! ## Properties over several steps -/

/-- The source's property in R132: `set r v; push r; pop r2` leaves r2 = v, the stack as it was, for all registers. -/
def Obligations.SetPushPopCopies : Prop :=
  ∀ (s : State) (r r2 : Reg) (v : Word), HasStackRoom s →
    ∃ t u w, exec (.set (.register r) (.literal v)) s = .next t ∧ exec (.push (.register r)) t = .next u ∧
      exec (.pop (.register r2)) u = .next w ∧ (w.readReg r2).toNat = v.toNat ∧ w.stack = s.stack

/-- The linkage of R159: `call` and then `ret` come back to `A + 2` with the stack as it was. -/
def Obligations.CallThenRetReturns : Prop :=
  ∀ (s : State) (target : Operand) (v : Word), s.getOperand target = .ok v → HasStackRoom s →
    ∃ t, exec (.call target) s = .next t ∧ exec .ret t = .next { s with pc := s.pc + 2 }

/-- Fetch coherence (20_memory.md R66): whatever value a `write-mem` stores over the opcode word of the next instruction, the
next fetch reads that value there, followed by the cells that stood after it; with 21 the next step is a `noop`. -/
def Obligations.StoreSeenByNextFetch : Prop :=
  ∀ (s : State) (addr src : Operand) (rest : List Cell) (a v : Word), s.hasStep = true →
    s.fetch = .ok (.writeMem addr src, rest) → s.getOperand addr = .ok a → a.toNat = s.pc.toNat + 3 →
    s.getOperand src = .ok v →
    ∃ t, step s = .next t ∧ t.pc = s.pc + 3 ∧ t.hasStep = true ∧
      t.fetch = decode (BitVec.ofNat 16 v.toNat :: s.mem.window (s.pc.toNat + 4) 3) ∧
      (v = 21 → step t = .next { t with pc := s.pc + 4 })

/-! ## Frames: what an instruction leaves unchanged, on every path that answers a next state -/

/-- The ten instructions that write one register and touch nothing else (R130, R140, R141, R170 to R175, R191). -/
def Obligations.RegisterWritersFrame : Prop :=
  ∀ (s t : State) (dest b c : Operand) (i : Instr),
    i ∈ [.set dest b, .eq dest b c, .gt dest b c, .add dest b c, .mult dest b c, .mod dest b c, .and dest b c,
      .or dest b c, .not dest b, .readMem dest b] →
    exec i s = .next t →
    KeepsRegsBut dest s t ∧ KeepsMemory s t ∧ t.stack = s.stack ∧ KeepsStreams s t ∧ KeepsRun s t ∧
      FaultOnlyOf i s t

/-- `push` and `call` (R131, R157): at most one cell is added to the stack; registers, memory and streams are kept. -/
def Obligations.PushCallFrame : Prop :=
  ∀ (s t : State) (o : Operand) (i : Instr), i ∈ [.push o, .call o] → exec i s = .next t →
    KeepsRegs s t ∧ KeepsMemory s t ∧ KeepsStreams s t ∧ KeepsRun s t ∧ FaultOnlyOf i s t ∧
      (t.stack = s.stack ∨ ∃ v, t.stack = s.stack ++ [v])

/-- `pop` and `ret` (R132, R158): at most the tail is removed; `ret` writes no register, `pop` only its destination. -/
def Obligations.PopRetFrame : Prop :=
  ∀ (s t : State) (dest : Operand) (i : Instr), i ∈ [.pop dest, .ret] → exec i s = .next t →
    KeepsRegsBut dest s t ∧ (i = .ret → KeepsRegs s t) ∧ KeepsMemory s t ∧ KeepsStreams s t ∧ KeepsRun s t ∧
      FaultOnlyOf i s t ∧ (t.stack = s.stack ∨ t.stack = s.stack.dropLast)

/-- `jmp`, `jt`, `jf` (R150 to R152): only the pc may change, and the fault record. -/
def Obligations.JumpFrame : Prop :=
  ∀ (s t : State) (c target : Operand) (i : Instr), i ∈ [.jmp target, .jt c target, .jf c target] →
    exec i s = .next t →
    KeepsRegs s t ∧ KeepsMemory s t ∧ t.stack = s.stack ∧ KeepsStreams s t ∧ KeepsRun s t ∧ FaultOnlyOf i s t

/-- `write-mem` (R190): every cell but the one at the resolved address reads as before, all of them when the address does
not resolve; everything else is kept. -/
def Obligations.WriteMemFrame : Prop :=
  ∀ (s t : State) (addr src : Operand), exec (.writeMem addr src) s = .next t →
    (∀ a, s.getOperand addr = .ok a → ∀ b : Word, b ≠ a → t.memRead b = s.memRead b) ∧
    (∀ e, s.getOperand addr = .error e → KeepsMemory s t) ∧
    KeepsRegs s t ∧ t.stack = s.stack ∧ KeepsStreams s t ∧ KeepsRun s t ∧ FaultOnlyOf (.writeMem addr src) s t

/-- `halt`, `out`, `in`, `noop` (R200 to R203): each changes only its own piece: the run state, the output stream, the
destination and the input stream, nothing. -/
def Obligations.SystemFrame : Prop :=
  ∀ (s t : State) (o : Operand) (i : Instr), i ∈ [.halt, .out o, .input o, .noop] → exec i s = .next t →
    KeepsRegsBut o s t ∧ (i ≠ .input o → KeepsRegs s t ∧ t.inp = s.inp) ∧ KeepsMemory s t ∧
      t.stack = s.stack ∧ t.diag = s.diag ∧ (i ≠ .out o → t.out = s.out) ∧ (i ≠ .halt → t.run = s.run) ∧
      t.stackDepth = s.stackDepth ∧ FaultOnlyOf i s t
end

