-- ==== Sys2Proof/Laws/Decode.lean ====
section
/-! SUPPORT. The laws of words, operands and opcodes: conversions between them lose nothing. -/

namespace Sys2Proof

@[simp] theorem cellOfWord_toNat (v : Word) : (cellOfWord v).toNat = v.toNat := by
  have := v.isLt
  simp [cellOfWord]
  omega

theorem wordOfCell_toNat {w : Cell} (h : w.toNat ≤ 32767) : (wordOfCell w).toNat = w.toNat := by
  simp [wordOfCell]
  omega

theorem cellOfWord_eq (v : Word) : cellOfWord v = BitVec.ofNat 16 v.toNat := by
  apply BitVec.eq_of_toNat_eq
  have := v.isLt
  simp
  omega

@[simp] theorem wordOfCell_cellOfWord (v : Word) : wordOfCell (cellOfWord v) = v := by
  apply BitVec.eq_of_toNat_eq
  have := v.isLt
  rw [wordOfCell_toNat (by rw [cellOfWord_toNat]; omega), cellOfWord_toNat]

theorem cellOfWord_wordOfCell {w : Cell} (h : w.toNat ≤ 32767) : cellOfWord (wordOfCell w) = w := by
  apply BitVec.eq_of_toNat_eq
  rw [cellOfWord_toNat, wordOfCell_toNat h]

theorem cellIsWord_iff {w : Cell} : cellIsWord w = true ↔ w.toNat ≤ 32767 := by
  simp only [cellIsWord, decide_eq_true_iff, Config.modulus]
  omega

@[simp] theorem cellIsWord_cellOfWord (v : Word) : cellIsWord (cellOfWord v) = true := by
  have := v.isLt
  rw [cellIsWord_iff, cellOfWord_toNat]
  omega

/-- `operandOf` with its bounds as numerals. -/
theorem operandOf_def (w : Cell) :
    operandOf w = if w.toNat < 32768 then .literal (wordOfCell w)
      else if w.toNat ≤ 32775 then .register (Fin.ofNat 8 (w.toNat - 32768)) else .invalid w := rfl

theorem operand_invalid_wellFormed {w : Cell} :
    (Operand.invalid w).wellFormed = true ↔ 32776 ≤ w.toNat := by
  simp only [Operand.wellFormed, decide_eq_true_iff, Config.regTop]
  omega

/-- A literal word, by its range (R82). -/
theorem operandOf_literal {w : Cell} (h : w.toNat ≤ 32767) : operandOf w = .literal (wordOfCell w) := by
  rw [operandOf_def, if_pos (by omega)]

/-- A register word, by its number (R82). -/
theorem operandOf_register {w : Cell} {k : Reg} (h : w.toNat = 32768 + k.val) : operandOf w = .register k := by
  have := k.isLt
  rw [operandOf_def, if_neg (by omega), if_pos (by omega)]
  refine congrArg _ (Fin.ext ?_)
  simp only [Fin.val_ofNat]
  omega

/-- An invalid word, by its range (R82). -/
theorem operandOf_invalid {w : Cell} (h : 32776 ≤ w.toNat) : operandOf w = .invalid w := by
  rw [operandOf_def, if_neg (by omega), if_neg (by omega)]

/-- The three classes leave no word out. -/
theorem operandOf_cases (w : Cell) :
    (w.toNat ≤ 32767 ∧ operandOf w = .literal (wordOfCell w)) ∨
    (∃ k : Reg, w.toNat = 32768 + k.val ∧ operandOf w = .register k) ∨
    (32776 ≤ w.toNat ∧ operandOf w = .invalid w) := by
  by_cases h1 : w.toNat ≤ 32767
  · exact .inl ⟨h1, operandOf_literal h1⟩
  · by_cases h2 : 32776 ≤ w.toNat
    · exact .inr (.inr ⟨h2, operandOf_invalid h2⟩)
    · have hk : w.toNat = 32768 + (⟨w.toNat - 32768, by omega⟩ : Reg).val := by simp only; omega
      exact .inr (.inl ⟨_, hk, operandOf_register hk⟩)

theorem operandCell_register_toNat (k : Reg) : (operandCell (.register k)).toNat = 32768 + k.val := by
  have := k.isLt
  simp only [operandCell, BitVec.toNat_ofNat, Config.regBase]
  omega

/-- Every word has exactly one operand, a well-formed one, whose word it is. -/
theorem operandOf_wellFormed (w : Cell) : (operandOf w).wellFormed = true := by
  rcases operandOf_cases w with ⟨-, h⟩ | ⟨k, -, h⟩ | ⟨hw, h⟩ <;> rw [h]
  · rfl
  · rfl
  · exact operand_invalid_wellFormed.2 hw

theorem operandCell_operandOf (w : Cell) : operandCell (operandOf w) = w := by
  rcases operandOf_cases w with ⟨hw, h⟩ | ⟨k, hw, h⟩ | ⟨-, h⟩ <;> rw [h]
  · exact cellOfWord_wordOfCell hw
  · exact BitVec.eq_of_toNat_eq (by rw [operandCell_register_toNat, hw])
  · rfl

theorem operandOf_operandCell {o : Operand} (h : o.wellFormed = true) : operandOf (operandCell o) = o := by
  cases o with
  | literal v =>
    have := v.isLt
    rw [operandCell, operandOf_literal (by rw [cellOfWord_toNat]; omega), wordOfCell_cellOfWord]
  | register k => exact operandOf_register (operandCell_register_toNat k)
  | invalid w => exact operandOf_invalid (operand_invalid_wellFormed.1 h)

/-- The opcode of an opcode's own number is that opcode (R86). -/
@[simp] theorem opcodeOf_opcodeCell (op : Opcode) : opcodeOf (opcodeCell op) = some op := by
  cases op <;> rfl

/-- An opcode word is unknown exactly when it is above 21 (R90). -/
theorem opcodeOf_eq_none {op : Cell} : opcodeOf op = none ↔ 22 ≤ op.toNat := by
  unfold opcodeOf
  constructor
  · intro h
    split at h <;> first | contradiction | skip
    by_contra hlt
    have : op.toNat < 22 := by omega
    interval_cases op.toNat <;> simp_all
  · intro h
    split <;> first | rfl | omega

/-- The word of a known opcode is that opcode's number: an opcode word is one opcode's only. -/
theorem opcodeCell_of_opcodeOf {w : Cell} {op : Opcode} (h : opcodeOf w = some op) : opcodeCell op = w := by
  unfold opcodeOf at h
  split at h <;> first | contradiction | skip
  all_goals
    next hw =>
      obtain rfl := Option.some.inj h
      exact (BitVec.eq_of_toNat_eq (by rw [hw]; rfl)).symm

/-- Cells that decode are exactly the encoding of the instruction, then the rest. -/
theorem decode_ok_iff {cells rest : List Cell} {i : Instr} :
    decode cells = .ok (i, rest) ↔
      ∃ op tail, cells = op :: tail ∧ ∃ o, opcodeOf op = some o ∧ withOperands o tail = some (i, rest) := by
  cases cells with
  | nil => simp [decode]
  | cons op tail =>
    simp only [decode]
    cases ho : opcodeOf op with
    | none => simp [ho]
    | some o =>
      cases hw : withOperands o tail with
      | none => simp [ho, hw]
      | some r => simp [ho, hw]

theorem format1_some {f : Operand → Instr} {cells : List Cell} {r : Instr × List Cell} (h : format1 f cells = some r) :
    ∃ w1, cells = w1 :: r.2 ∧ r.1 = f (operandOf w1) := by
  match cells, h with
  | w1 :: rest, h => obtain rfl := Option.some.inj h; exact ⟨w1, rfl, rfl⟩

theorem format2_some {f : Operand → Operand → Instr} {cells : List Cell} {r : Instr × List Cell}
    (h : format2 f cells = some r) :
    ∃ w1 w2, cells = w1 :: w2 :: r.2 ∧ r.1 = f (operandOf w1) (operandOf w2) := by
  match cells, h with
  | w1 :: w2 :: rest, h => obtain rfl := Option.some.inj h; exact ⟨w1, w2, rfl, rfl⟩

theorem format3_some {f : Operand → Operand → Operand → Instr} {cells : List Cell} {r : Instr × List Cell}
    (h : format3 f cells = some r) :
    ∃ w1 w2 w3, cells = w1 :: w2 :: w3 :: r.2 ∧ r.1 = f (operandOf w1) (operandOf w2) (operandOf w3) := by
  match cells, h with
  | w1 :: w2 :: w3 :: rest, h => obtain rfl := Option.some.inj h; exact ⟨w1, w2, w3, rfl, rfl⟩

/-- What `withOperands` reads: an instruction of that opcode whose operands are the cells it took, in order. -/
theorem withOperands_some {op : Opcode} {cells rest : List Cell} {i : Instr} (h : withOperands op cells = some (i, rest)) :
    i.opcode = op ∧ ∃ ws : List Cell, ws.length = op.arity ∧ cells = ws ++ rest ∧ i.operands = ws.map operandOf := by
  cases op <;> simp only [withOperands] at h
  case halt | ret | noop =>
    obtain ⟨rfl, rfl⟩ := by simpa using h
    exact ⟨rfl, [], rfl, rfl, rfl⟩
  case push | pop | jmp | call | out | input =>
    obtain ⟨w1, rfl, hi⟩ := format1_some h
    obtain rfl : i = _ := hi
    exact ⟨rfl, [w1], rfl, rfl, rfl⟩
  case set | jt | jf | not | writeMem | readMem =>
    obtain ⟨w1, w2, rfl, hi⟩ := format2_some h
    obtain rfl : i = _ := hi
    exact ⟨rfl, [w1, w2], rfl, rfl, rfl⟩
  case eq | gt | add | mult | mod | and | or =>
    obtain ⟨w1, w2, w3, rfl, hi⟩ := format3_some h
    obtain rfl : i = _ := hi
    exact ⟨rfl, [w1, w2, w3], rfl, rfl, rfl⟩

/-- The other way: an instruction is read from its own operand cells. -/
theorem withOperands_encode (i : Instr) (h : i.wellFormed = true) (rest : List Cell) :
    withOperands i.opcode (i.operands.map operandCell ++ rest) = some (i, rest) := by
  cases i <;> simp only [Instr.wellFormed, Instr.operands, List.all_cons, List.all_nil, Bool.and_true,
    Bool.and_eq_true] at h <;>
  simp [withOperands, Instr.opcode, Instr.operands, format1, format2, format3, operandOf_operandCell, h]

/-- A decoding that fails on an opcode word fails for an unknown one, or for want of cells. -/
theorem decode_error {op : Cell} {tail : List Cell} {e : DecodeError} (h : decode (op :: tail) = .error e) :
    (e = .unknownOpcode op ∧ opcodeOf op = none) ∨
      ∃ o, e = .truncated o ∧ opcodeOf op = some o ∧ tail.length < o.arity := by
  simp only [decode] at h
  cases ho : opcodeOf op with
  | none => rw [ho] at h; exact .inl ⟨(Except.error.inj h).symm, rfl⟩
  | some o =>
    simp only [ho] at h
    cases hw : withOperands o tail with
    | some r => simp [hw] at h
    | none =>
      simp only [hw] at h
      refine .inr ⟨o, (Except.error.inj h).symm, rfl, ?_⟩
      cases o <;> rcases tail with _ | ⟨a, _ | ⟨b, _ | ⟨c, tail⟩⟩⟩ <;>
        simp_all [withOperands, format1, format2, format3, Opcode.arity]

/-- When enough cells follow a known opcode, it decodes. -/
theorem decode_of_enough {op : Cell} {tail : List Cell} {o : Opcode} (ho : opcodeOf op = some o)
    (h : o.arity ≤ tail.length) : ∃ i rest, decode (op :: tail) = .ok (i, rest) := by
  cases hd : decode (op :: tail) with
  | ok r => exact ⟨r.1, r.2, rfl⟩
  | error e =>
    rcases decode_error hd with ⟨-, hn⟩ | ⟨o', -, ho', hlt⟩
    · simp [hn] at ho
    · obtain rfl : o' = o := by simpa [ho'] using ho
      omega

end Sys2Proof
end

