-- ==== Sys2Proof/Laws/State.lean ====
section
/-! SUPPORT. Each named update of State, field by field: one lemma per field, true by unfolding, so that no later
proof unfolds a record update. -/

namespace Sys2Proof.Machine

variable (s : State)

@[simp] theorem State.setReg_regs (k : Reg) (v : Cell) : (s.setReg k v).regs = s.regs.set k v := rfl
@[simp] theorem State.setReg_mem (k : Reg) (v : Cell) : (s.setReg k v).mem = s.mem := rfl
@[simp] theorem State.setReg_stack (k : Reg) (v : Cell) : (s.setReg k v).stack = s.stack := rfl
@[simp] theorem State.setReg_pc (k : Reg) (v : Cell) : (s.setReg k v).pc = s.pc := rfl
@[simp] theorem State.setReg_run (k : Reg) (v : Cell) : (s.setReg k v).run = s.run := rfl
@[simp] theorem State.setReg_fault (k : Reg) (v : Cell) : (s.setReg k v).fault = s.fault := rfl
@[simp] theorem State.setReg_out (k : Reg) (v : Cell) : (s.setReg k v).out = s.out := rfl
@[simp] theorem State.setReg_diag (k : Reg) (v : Cell) : (s.setReg k v).diag = s.diag := rfl
@[simp] theorem State.setReg_inp (k : Reg) (v : Cell) : (s.setReg k v).inp = s.inp := rfl
@[simp] theorem State.setReg_stackDepth (k : Reg) (v : Cell) : (s.setReg k v).stackDepth = s.stackDepth := rfl

@[simp] theorem State.memWrite_regs (a : Word) (v : Cell) : (s.memWrite a v).regs = s.regs := rfl
@[simp] theorem State.memWrite_mem (a : Word) (v : Cell) : (s.memWrite a v).mem = s.mem.write a.toNat v := rfl
@[simp] theorem State.memWrite_stack (a : Word) (v : Cell) : (s.memWrite a v).stack = s.stack := rfl
@[simp] theorem State.memWrite_pc (a : Word) (v : Cell) : (s.memWrite a v).pc = s.pc := rfl
@[simp] theorem State.memWrite_run (a : Word) (v : Cell) : (s.memWrite a v).run = s.run := rfl
@[simp] theorem State.memWrite_fault (a : Word) (v : Cell) : (s.memWrite a v).fault = s.fault := rfl
@[simp] theorem State.memWrite_out (a : Word) (v : Cell) : (s.memWrite a v).out = s.out := rfl
@[simp] theorem State.memWrite_diag (a : Word) (v : Cell) : (s.memWrite a v).diag = s.diag := rfl
@[simp] theorem State.memWrite_inp (a : Word) (v : Cell) : (s.memWrite a v).inp = s.inp := rfl
@[simp] theorem State.memWrite_stackDepth (a : Word) (v : Cell) : (s.memWrite a v).stackDepth = s.stackDepth := rfl

@[simp] theorem State.emit_regs (c : Word) : (s.emit c).regs = s.regs := rfl
@[simp] theorem State.emit_mem (c : Word) : (s.emit c).mem = s.mem := rfl
@[simp] theorem State.emit_stack (c : Word) : (s.emit c).stack = s.stack := rfl
@[simp] theorem State.emit_pc (c : Word) : (s.emit c).pc = s.pc := rfl
@[simp] theorem State.emit_run (c : Word) : (s.emit c).run = s.run := rfl
@[simp] theorem State.emit_fault (c : Word) : (s.emit c).fault = s.fault := rfl
@[simp] theorem State.emit_out (c : Word) : (s.emit c).out = s.out ++ [c] := rfl
@[simp] theorem State.emit_diag (c : Word) : (s.emit c).diag = s.diag := rfl
@[simp] theorem State.emit_inp (c : Word) : (s.emit c).inp = s.inp := rfl
@[simp] theorem State.emit_stackDepth (c : Word) : (s.emit c).stackDepth = s.stackDepth := rfl

@[simp] theorem State.report_regs (r : DiagRecord) : (s.report r).regs = s.regs := rfl
@[simp] theorem State.report_mem (r : DiagRecord) : (s.report r).mem = s.mem := rfl
@[simp] theorem State.report_stack (r : DiagRecord) : (s.report r).stack = s.stack := rfl
@[simp] theorem State.report_pc (r : DiagRecord) : (s.report r).pc = s.pc := rfl
@[simp] theorem State.report_run (r : DiagRecord) : (s.report r).run = s.run := rfl
@[simp] theorem State.report_fault (r : DiagRecord) : (s.report r).fault = s.fault := rfl
@[simp] theorem State.report_out (r : DiagRecord) : (s.report r).out = s.out := rfl
@[simp] theorem State.report_diag (r : DiagRecord) : (s.report r).diag = s.diag ++ [r] := rfl
@[simp] theorem State.report_inp (r : DiagRecord) : (s.report r).inp = s.inp := rfl
@[simp] theorem State.report_stackDepth (r : DiagRecord) : (s.report r).stackDepth = s.stackDepth := rfl

@[simp] theorem State.raise_regs (c : Cause) (op a : Cell) : (s.raise c op a).regs = s.regs := rfl
@[simp] theorem State.raise_mem (c : Cause) (op a : Cell) : (s.raise c op a).mem = s.mem := rfl
@[simp] theorem State.raise_stack (c : Cause) (op a : Cell) : (s.raise c op a).stack = s.stack := rfl
@[simp] theorem State.raise_pc (c : Cause) (op a : Cell) : (s.raise c op a).pc = s.pc := rfl
@[simp] theorem State.raise_run (c : Cause) (op a : Cell) : (s.raise c op a).run = s.run := rfl
@[simp] theorem State.raise_fault (c : Cause) (op a : Cell) : (s.raise c op a).fault = some { cause := c, opcode := op, addr := a } := rfl
@[simp] theorem State.raise_out (c : Cause) (op a : Cell) : (s.raise c op a).out = s.out := rfl
@[simp] theorem State.raise_diag (c : Cause) (op a : Cell) : (s.raise c op a).diag = s.diag := rfl
@[simp] theorem State.raise_inp (c : Cause) (op a : Cell) : (s.raise c op a).inp = s.inp := rfl
@[simp] theorem State.raise_stackDepth (c : Cause) (op a : Cell) : (s.raise c op a).stackDepth = s.stackDepth := rfl

end Sys2Proof.Machine
end

