-- ==== Sys2Proof/Laws/Memory.lean ====
section
/-! SUPPORT. The laws of memory: a read after a write, the canonical form, and that it makes equal memories equal
data. -/

namespace Sys2Proof.Machine

/-- A canonical memory, read at its head: the form of the head and of the rest. -/
theorem Memory.wf_cons {a : Nat} {v : Cell} {rest : Memory} :
    Memory.wf ((a, v) :: rest) = true ↔
      a < 32768 ∧ v ≠ 0 ∧ (∀ c ∈ rest, a < c.1) ∧ rest.wf = true := by
  simp [Memory.wf, and_assoc]

/-- An address below every listed one reads as unlisted. -/
theorem Memory.read_of_lt {m : Memory} {a : Nat} (h : ∀ c ∈ m, a < c.1) : m.read a = 0 := by
  induction m with
  | nil => rfl
  | cons c rest ih =>
    have hc := h c (by simp)
    rw [Memory.read, if_neg (by omega)]
    exact ih fun d hd => h d (by simp [hd])

theorem Memory.read_erase (m : Memory) (a b : Nat) :
    (m.erase a).read b = if b = a then 0 else m.read b := by
  induction m with
  | nil => simp [Memory.erase, Memory.read, Memory.unlisted]
  | cons c rest ih =>
    obtain ⟨c, x⟩ := c
    simp only [Memory.erase] at ih ⊢
    by_cases hc : c = a
    · subst hc
      rw [List.filter_cons_of_neg (by simp), ih, Memory.read]
      split <;> rfl
    · rw [List.filter_cons_of_pos (by simpa using hc), Memory.read, ih, Memory.read]
      by_cases hb : b = c
      · simp [hb, hc]
      · simp [hb]

theorem Memory.read_insert {m : Memory} {a : Nat} (h : m.read a = 0) (hm : ∀ c ∈ m, c.1 ≠ a) (b : Nat) (v : Cell) :
    (m.insert a v).read b = if b = a then v else m.read b := by
  induction m with
  | nil => simp [Memory.insert, Memory.read]
  | cons c rest ih =>
    obtain ⟨c, x⟩ := c
    have hca : c ≠ a := hm (c, x) (by simp)
    rw [Memory.insert]
    split
    · rw [Memory.read]
    · rw [Memory.read, ih (by simpa [Memory.read, Ne.symm hca] using h) (fun d hd => hm d (by simp [hd])), Memory.read]
      by_cases hb : b = c
      · simp [hb, hca]
      · simp [hb]

theorem Memory.mem_erase {m : Memory} {a : Nat} {c : Nat × Cell} : c ∈ m.erase a ↔ c ∈ m ∧ c.1 ≠ a := by
  simp [Memory.erase]

theorem Memory.mem_insert {m : Memory} {a : Nat} {v : Cell} {c : Nat × Cell} :
    c ∈ m.insert a v ↔ c = (a, v) ∨ c ∈ m := by
  induction m with
  | nil => simp [Memory.insert]
  | cons d rest ih =>
    rw [Memory.insert]
    split
    · simp
    · simp [ih, or_left_comm]

/-- A read after a write, in any memory: the value at the address written, the old content elsewhere. -/
theorem Memory.read_write (m : Memory) (a b : Nat) (v : Cell) :
    (m.write a v).read b = if b = a then v else m.read b := by
  unfold Memory.write
  split
  · next hv => rw [Memory.read_erase, hv]
  · rw [Memory.read_insert (by simp [Memory.read_erase]) fun c hc => (Memory.mem_erase.1 hc).2, Memory.read_erase]
    by_cases hb : b = a <;> simp [hb]

theorem Memory.erase_wf {m : Memory} (hm : m.wf = true) (a : Nat) : (m.erase a).wf = true := by
  induction m with
  | nil => rfl
  | cons c rest ih =>
    obtain ⟨c, x⟩ := c
    obtain ⟨hc, hx, hlt, hrest⟩ := Memory.wf_cons.1 hm
    by_cases hca : c = a
    · rw [Memory.erase, List.filter_cons_of_neg (by simpa using hca)]
      exact ih hrest
    · rw [Memory.erase, List.filter_cons_of_pos (by simpa using hca)]
      exact Memory.wf_cons.2 ⟨hc, hx, fun d hd => hlt d (Memory.mem_erase.1 hd).1, ih hrest⟩

theorem Memory.insert_wf {m : Memory} (hm : m.wf = true) {a : Nat} (ha : a < 32768) {v : Cell} (hv : v ≠ 0)
    (hne : ∀ c ∈ m, c.1 ≠ a) : (m.insert a v).wf = true := by
  induction m with
  | nil => exact Memory.wf_cons.2 ⟨ha, hv, by simp, rfl⟩
  | cons c rest ih =>
    obtain ⟨c, x⟩ := c
    obtain ⟨hc, hx, hlt, hrest⟩ := Memory.wf_cons.1 hm
    rw [Memory.insert]
    split
    · next hac =>
      refine Memory.wf_cons.2 ⟨ha, hv, fun d hd => ?_, hm⟩
      rcases List.mem_cons.1 hd with rfl | hd
      · exact hac
      · exact hac.trans (hlt d hd)
    · next hac =>
      have hca : c ≠ a := hne (c, x) (by simp)
      refine Memory.wf_cons.2 ⟨hc, hx, fun d hd => ?_, ih hrest fun d hd => hne d (by simp [hd])⟩
      rcases Memory.mem_insert.1 hd with rfl | hd
      · exact Nat.lt_of_le_of_ne (Nat.le_of_not_lt hac) hca
      · exact hlt d hd

/-- A write inside memory keeps the canonical form. -/
theorem Memory.write_wf {m : Memory} (hm : m.wf = true) {a : Nat} (ha : a < 32768) (v : Cell) :
    (m.write a v).wf = true := by
  unfold Memory.write
  split
  · exact Memory.erase_wf hm a
  · next hv => exact Memory.insert_wf (Memory.erase_wf hm a) ha hv fun c hc => (Memory.mem_erase.1 hc).2

/-- The load keeps the canonical form. -/
theorem Memory.load_wf {m : Memory} (hm : m.wf = true) (a : Nat) (cells : List Cell) :
    (m.load a cells).wf = true := by
  induction cells generalizing m a with
  | nil => exact hm
  | cons c rest ih =>
    rw [Memory.load]
    split
    · next ha => exact ih (Memory.write_wf hm ha c) (a + 1)
    · exact ih hm (a + 1)

/-- A read after a load that fits in memory. -/
theorem Memory.read_load (m : Memory) {a : Nat} {cells : List Cell}
    (hfit : a + cells.length ≤ 32768) (b : Nat) :
    (m.load a cells).read b = if h : a ≤ b ∧ b - a < cells.length then cells[b - a] else m.read b := by
  induction cells generalizing m a with
  | nil => simp [Memory.load]
  | cons c rest ih =>
    simp only [List.length_cons] at hfit
    have ha : a < 32768 := by omega
    rw [Memory.load, if_pos (by simpa [Config.memWords] using ha), ih _ (by omega), Memory.read_write]
    by_cases hb : b = a
    · subst hb
      simp
    · by_cases hin : a + 1 ≤ b ∧ b - (a + 1) < rest.length
      · have hidx : b - a = (b - (a + 1)) + 1 := by omega
        rw [dif_pos hin, dif_pos (by simp only [List.length_cons]; omega)]
        simp only [hidx, List.getElem_cons_succ]
      · rw [dif_neg hin, dif_neg (by simp only [List.length_cons]; omega), if_neg hb]

/-- Two canonical memories that read the same at every address are the same list. -/
theorem Memory.ext_of_read {m n : Memory} (hm : m.wf = true) (hn : n.wf = true)
    (h : ∀ a, m.read a = n.read a) : m = n := by
  induction m generalizing n with
  | nil =>
    cases n with
    | nil => rfl
    | cons c rest =>
      obtain ⟨c, x⟩ := c
      obtain ⟨-, hx, -, -⟩ := Memory.wf_cons.1 hn
      have := h c
      simp [Memory.read, Memory.unlisted] at this
      exact absurd this.symm hx
  | cons c rest ih =>
    obtain ⟨c, x⟩ := c
    obtain ⟨-, hx, hlt, hrest⟩ := Memory.wf_cons.1 hm
    cases n with
    | nil =>
      have := h c
      simp [Memory.read, Memory.unlisted] at this
      exact absurd this hx
    | cons d rest' =>
      obtain ⟨d, y⟩ := d
      obtain ⟨-, hy, hlt', hrest'⟩ := Memory.wf_cons.1 hn
      have hcd : c = d := by
        rcases Nat.lt_trichotomy c d with hl | he | hl
        · have := h c
          rw [Memory.read_of_lt (m := (d, y) :: rest') (by
            intro e he
            rcases List.mem_cons.1 he with rfl | he
            · exact hl
            · exact hl.trans (hlt' e he))] at this
          simp [Memory.read] at this
          exact absurd this hx
        · exact he
        · have := h d
          rw [Memory.read_of_lt (m := (c, x) :: rest) (by
            intro e he
            rcases List.mem_cons.1 he with rfl | he
            · exact hl
            · exact hl.trans (hlt e he))] at this
          simp [Memory.read] at this
          exact absurd this.symm hy
      subst hcd
      have hxy : x = y := by simpa [Memory.read] using h c
      subst hxy
      congr 1
      refine ih hrest hrest' fun a => ?_
      by_cases ha : a = c
      · rw [ha, Memory.read_of_lt hlt, Memory.read_of_lt hlt']
      · simpa [Memory.read, ha] using h a

/-- Past the last address a canonical memory lists nothing. -/
theorem Memory.read_of_ge {m : Memory} (hm : m.wf = true) {a : Nat} (ha : 32768 ≤ a) : m.read a = 0 := by
  induction m with
  | nil => rfl
  | cons c rest ih =>
    obtain ⟨c, x⟩ := c
    obtain ⟨hc, -, -, hrest⟩ := Memory.wf_cons.1 hm
    rw [Memory.read, if_neg (by omega)]
    exact ih hrest

/-- Reading through `memRead` after `memWrite`. -/
theorem State.memRead_memWrite (s : State) (a b : Word) (v : Cell) :
    (s.memWrite a v).memRead b = if b = a then v else s.memRead b := by
  simp only [State.memRead, State.memWrite_mem, Memory.read_write, BitVec.toNat_inj]

/-- `memWrite` keeps the canonical form: an address is a Word. -/
theorem State.memWrite_wf {s : State} (hm : s.mem.wf = true) (a : Word) (v : Cell) :
    (s.memWrite a v).mem.wf = true := Memory.write_wf hm a.isLt v

end Sys2Proof.Machine
end

