-- ==== Sys2Proof/Laws/Ops.lean ====
section
/-! SUPPORT. What each shared operation can answer, said once: when it succeeds and with what, when it raises and
what. Proofs cite these and do not unfold the operations. -/

namespace Sys2Proof.Machine

/-- A chain of checks succeeds when each part does. -/
theorem bind_ok_iff {α β : Type} {x : Except Cause α} {f : α → Except Cause β} {b : β} :
    (x >>= f) = .ok b ↔ ∃ a, x = .ok a ∧ f a = .ok b := by
  cases x <;> simp [bind, Except.bind]

/-- A chain of checks raises what its first failing part raises. -/
theorem bind_error_iff {α β : Type} {x : Except Cause α} {f : α → Except Cause β} {e : Cause} :
    (x >>= f) = .error e ↔ x = .error e ∨ ∃ a, x = .ok a ∧ f a = .error e := by
  cases x <;> simp [bind, Except.bind]

theorem pure_ok_iff {α : Type} {a b : α} : (pure a : Except Cause α) = .ok b ↔ a = b := by
  simp [pure, Except.pure]

theorem pure_ne_error {α : Type} {a : α} {e : Cause} : ¬ (pure a : Except Cause α) = .error e := by
  simp [pure, Except.pure]

/-- `dst` succeeds on a register word only (R115). -/
theorem destOf_ok_iff {o : Operand} {k : Reg} : destOf o = .ok k ↔ o = .register k := by
  cases o <;> simp [destOf]

theorem destOf_error_iff {o : Operand} {e : Cause} :
    destOf o = .error e ↔ isNoDest o = true ∧ e = .invalidOperand := by
  cases o <;> simp [destOf, isNoDest, eq_comm]

/-- `get` raises on an invalid word only, and only InvalidOperand (R114). -/
theorem getOperand_error_iff {s : State} {o : Operand} {e : Cause} :
    s.getOperand o = .error e ↔ isInvalid o = true ∧ e = .invalidOperand := by
  cases o <;> simp [State.getOperand, isInvalid, eq_comm]

theorem isInvalid_false_of_getOperand {s : State} {o : Operand} {v : Word} (h : s.getOperand o = .ok v) :
    isInvalid o = false := by
  cases o <;> simp_all [State.getOperand, isInvalid]

/-- `get` reads the register file and nothing else (R114). -/
theorem getOperand_congr {s t : State} (h : t.regs = s.regs) (o : Operand) : t.getOperand o = s.getOperand o := by
  cases o <;> simp [State.getOperand, State.readReg, h]

/-- The write port stores a Word (R23). -/
theorem writeReg_ok_iff {s t : State} {k : Reg} {v : Cell} :
    s.writeReg k v = .ok t ↔ v.toNat ≤ 32767 ∧ t = s.setReg k v := by
  unfold State.writeReg
  by_cases h : cellIsWord v = true
  · simp [h, cellIsWord_iff.1 h, eq_comm]
  · simp [h, mt cellIsWord_iff.2 h]

theorem writeReg_error_iff {s : State} {k : Reg} {v : Cell} {e : Cause} :
    s.writeReg k v = .error e ↔ 32768 ≤ v.toNat ∧ e = .registerRangeViolation := by
  have hw := cellIsWord_iff (w := v)
  unfold State.writeReg
  split
  · next h => simp; have := hw.1 h; omega
  · next h => simp [eq_comm, show 32768 ≤ v.toNat by by_contra hc; exact h (hw.2 (by omega))]

/-- The write port takes every Word: the check never fires for a computed value. -/
@[simp] theorem writeReg_cellOfWord (s : State) (k : Reg) (v : Word) :
    s.writeReg k (cellOfWord v) = .ok (s.setReg k (cellOfWord v)) := by
  simp [State.writeReg]

theorem stackHasRoom_iff {s : State} : s.stackHasRoom = true ↔ HasStackRoom s := by
  unfold State.stackHasRoom HasStackRoom
  cases s.stackDepth <;> simp

/-- `Push` (R31). -/
theorem push_ok_iff {s t : State} {v : Cell} :
    s.push v = .ok t ↔ HasStackRoom s ∧ t = { s with stack := s.stack ++ [v] } := by
  rw [← stackHasRoom_iff, eq_comm (a := t)]
  unfold State.push
  split
  · next h => simp [h]
  · next h => simp [h]

theorem push_error_iff {s : State} {v : Cell} {e : Cause} :
    s.push v = .error e ↔ ¬ HasStackRoom s ∧ e = .stackOverflow := by
  rw [← stackHasRoom_iff, eq_comm (a := e)]
  unfold State.push
  split
  · next h => simp [h]
  · next h => simp [h]

/-- `Pop` (R32). -/
theorem pop_ok_iff {s t : State} {v : Cell} :
    s.pop = .ok (v, t) ↔ ∃ below, s.stack = below ++ [v] ∧ t = { s with stack := below } := by
  unfold State.pop
  rcases List.eq_nil_or_concat s.stack with h | ⟨below, w, h⟩
  · simp [h]
  · rw [List.concat_eq_append] at h
    rw [h]
    simp only [List.getLast?_append, List.getLast?_singleton, Option.some_or, List.dropLast_concat,
      Except.ok.injEq, Prod.mk.injEq]
    constructor
    · rintro ⟨rfl, rfl⟩
      exact ⟨below, rfl, rfl⟩
    · rintro ⟨b, hb, rfl⟩
      obtain ⟨rfl, hw⟩ := List.append_inj' hb rfl
      exact ⟨by simpa using hw, rfl⟩

theorem pop_error_iff {s : State} {e : Cause} : s.pop = .error e ↔ s.stack = [] ∧ e = .stackUnderflow := by
  unfold State.pop
  rcases List.eq_nil_or_concat s.stack with h | ⟨below, w, h⟩
  · simp [h, eq_comm]
  · simp [h]

/-- `NextInput` (10_state.md R40). -/
theorem nextInput_ok_iff {s t : State} {c : Word} :
    s.nextInput = .ok (c, t) ↔ ∃ more, s.inp = some (c :: more) ∧ t = { s with inp := some more } := by
  unfold State.nextInput
  split
  · next h => simp [h]
  · next h => simp [h]
  · next d more h =>
    simp only [h, Except.ok.injEq, Prod.mk.injEq, Option.some.injEq, List.cons.injEq]
    constructor
    · rintro ⟨rfl, rfl⟩
      exact ⟨_, ⟨rfl, rfl⟩, rfl⟩
    · rintro ⟨_, ⟨rfl, rfl⟩, rfl⟩
      exact ⟨rfl, rfl⟩

theorem nextInput_error_iff {s : State} {e : Cause} :
    s.nextInput = .error e ↔ (s.inp = none ∨ s.inp = some []) ∧ e = .inputUnavailable := by
  rw [eq_comm (a := e)]
  unfold State.nextInput
  split
  · next h => simp [h]
  · next h => simp [h]
  · next h => simp [h]

/-- The ALU raises on a zero divisor only (R177). -/
theorem aluResult_error_iff {op : AluOp} {b c : Word} {e : Cause} :
    aluResult op b c = .error e ↔ (op = .mod ∧ c = 0) ∧ e = .divideOrModByZero := by
  rw [eq_comm (a := e)]
  cases op <;> simp only [aluResult, alu]
  case mod => by_cases h : c = 0#15 <;> simp [h]
  all_goals simp

theorem aluResult_ok_iff {op : AluOp} {b c r : Word} : aluResult op b c = .ok r ↔ alu op b c = some r := by
  unfold aluResult
  split
  · next h => simp [h]
  · next h => simp [h]

theorem reduce_toNat (n : Nat) : (reduce n).toNat = n % 32768 := by
  simp [reduce, Config.modulus]

/-- A register read after a register write. -/
theorem readReg_setReg (s : State) (j k : Reg) (v : Cell) :
    (s.setReg k v).readReg j = if j = k then v else s.readReg j := by
  have : (k.val = j.val) ↔ j = k := by rw [Fin.ext_iff, eq_comm]
  simp [State.readReg, State.setReg, Vector.getElem_set, this]

@[simp] theorem readReg_setReg_self (s : State) (k : Reg) (v : Cell) : (s.setReg k v).readReg k = v := by
  simp [readReg_setReg]

/-- A register read sees the register file only. -/
theorem readReg_congr {s t : State} (h : t.regs = s.regs) (k : Reg) : t.readReg k = s.readReg k := by
  simp [State.readReg, h]

/-- A memory read sees memory only. -/
theorem memRead_congr {s t : State} (h : t.mem = s.mem) (a : Word) : t.memRead a = s.memRead a := by
  simp [State.memRead, h]

end Sys2Proof.Machine
end

