-- ==== Sys2Proof/Laws/Handlers.lean ====
section
/-! SUPPORT. What each handler can do, and what `exec` can answer: one lemma each. -/

namespace Sys2Proof.Machine

/-- The handler of an instruction. -/
def handlerOf (i : Instr) : State → Except Cause HandlerEnd :=
  match i with
  | .halt => haltHandler
  | .set d a => setHandler d a
  | .push a => pushHandler a
  | .pop d => popHandler d
  | .eq d b c => aluHandler3 .eq d b c
  | .gt d b c => aluHandler3 .gt d b c
  | .jmp t => jmpHandler t
  | .jt c t => branchHandler true c t
  | .jf c t => branchHandler false c t
  | .add d b c => aluHandler3 .add d b c
  | .mult d b c => aluHandler3 .mult d b c
  | .mod d b c => aluHandler3 .mod d b c
  | .and d b c => aluHandler3 .and d b c
  | .or d b c => aluHandler3 .or d b c
  | .not d a => aluHandler2 .not d a
  | .writeMem a v => writeMemHandler a v
  | .readMem d a => readMemHandler d a
  | .call t => callHandler t
  | .ret => retHandler
  | .out a => outHandler a
  | .input d => inputHandler d
  | .noop => noopHandler

/-- Every meaning is its handler, run by `runHandler`. -/
theorem exec_eq_runHandler (i : Instr) (s : State) : exec i s = runHandler i.opcode s (handlerOf i) := by
  cases i <;> rfl

/-- The state a handler sees: the pc is at the last cell fetched (R112). -/
def fetchedState (i : Instr) (s : State) : State := { s with pc := s.pc + BitVec.ofNat 16 i.opcode.arity }

@[simp] theorem fetchedState_regs (i : Instr) (s : State) : (fetchedState i s).regs = s.regs := rfl
@[simp] theorem fetchedState_mem (i : Instr) (s : State) : (fetchedState i s).mem = s.mem := rfl
@[simp] theorem fetchedState_stack (i : Instr) (s : State) : (fetchedState i s).stack = s.stack := rfl
@[simp] theorem fetchedState_run (i : Instr) (s : State) : (fetchedState i s).run = s.run := rfl
@[simp] theorem fetchedState_fault (i : Instr) (s : State) : (fetchedState i s).fault = s.fault := rfl
@[simp] theorem fetchedState_out (i : Instr) (s : State) : (fetchedState i s).out = s.out := rfl
@[simp] theorem fetchedState_diag (i : Instr) (s : State) : (fetchedState i s).diag = s.diag := rfl
@[simp] theorem fetchedState_inp (i : Instr) (s : State) : (fetchedState i s).inp = s.inp := rfl
@[simp] theorem fetchedState_stackDepth (i : Instr) (s : State) : (fetchedState i s).stackDepth = s.stackDepth := rfl
@[simp] theorem fetchedState_pc (i : Instr) (s : State) :
    (fetchedState i s).pc = s.pc + BitVec.ofNat 16 i.opcode.arity := rfl

@[simp] theorem getOperand_fetchedState (i : Instr) (s : State) (o : Operand) :
    (fetchedState i s).getOperand o = s.getOperand o := getOperand_congr rfl o

/-- The three ways an instruction ends (R113, R229). -/
inductive ExecEnds (i : Instr) (s t : State) : Prop
  | advance (u : State) (h : handlerOf i (fetchedState i s) = .ok (.advance u)) (ht : t = { u with pc := u.pc + 1 })
  | jump (u : State) (target : Cell) (h : handlerOf i (fetchedState i s) = .ok (.jump u target))
      (ht : t = { u with pc := target })
  | raise (cause : Cause) (h : handlerOf i (fetchedState i s) = .error cause) (ht : t = faultState i s cause)

/-- What `exec` can answer: a next state, in one of the three ways, and nothing else. -/
theorem exec_next_iff {i : Instr} {s t : State} : exec i s = .next t ↔ ExecEnds i s t := by
  rw [exec_eq_runHandler]
  unfold runHandler
  simp only
  change (match handlerOf i (fetchedState i s) with
    | .ok (.advance t) => Host.Outcome.next { t with pc := t.pc + 1 }
    | .ok (.jump t target) => .next { t with pc := target }
    | .error cause => .next ((fetchedState i s).raise cause (opcodeCell i.opcode) s.pc)) = Host.Outcome.next t ↔ _
  constructor
  · intro h
    split at h
    · next u hu => exact .advance u hu (Host.Outcome.next.inj h).symm
    · next u g hu => exact .jump u g hu (Host.Outcome.next.inj h).symm
    · next c hc => exact .raise c hc (Host.Outcome.next.inj h).symm
  · rintro (⟨u, h, rfl⟩ | ⟨u, g, h, rfl⟩ | ⟨c, h, rfl⟩)
    · rw [h]
    · rw [h]
    · rw [h]; rfl

/-- An instruction always answers a next state. -/
theorem exec_total (i : Instr) (s : State) : ∃ t, exec i s = .next t := by
  match h : handlerOf i (fetchedState i s) with
  | .ok (.advance u) => exact ⟨_, exec_next_iff.2 (.advance u h rfl)⟩
  | .ok (.jump u g) => exact ⟨_, exec_next_iff.2 (.jump u g h rfl)⟩
  | .error c => exact ⟨_, exec_next_iff.2 (.raise c h rfl)⟩

theorem exec_advance {i : Instr} {s u : State} (h : handlerOf i (fetchedState i s) = .ok (.advance u)) :
    exec i s = .next { u with pc := u.pc + 1 } := exec_next_iff.2 (.advance u h rfl)

theorem exec_jump {i : Instr} {s u : State} {target : Cell} (h : handlerOf i (fetchedState i s) = .ok (.jump u target)) :
    exec i s = .next { u with pc := target } := exec_next_iff.2 (.jump u target h rfl)

theorem exec_raise {i : Instr} {s : State} {cause : Cause} (h : handlerOf i (fetchedState i s) = .error cause) :
    exec i s = .next (faultState i s cause) := exec_next_iff.2 (.raise cause h rfl)

/-! ## When each handler succeeds, and with what -/

section
variable {s : State} {e : HandlerEnd} {c : Cause}

theorem setHandler_ok_iff {d a : Operand} : setHandler d a s = .ok e ↔
    ∃ k v, d = .register k ∧ s.getOperand a = .ok v ∧ e = .advance (s.setReg k (cellOfWord v)) := by
  simp only [setHandler, bind_ok_iff, pure_ok_iff, destOf_ok_iff, writeReg_cellOfWord, Except.ok.injEq]
  constructor
  · rintro ⟨k, hk, v, hv, t, rfl, rfl⟩
    exact ⟨k, v, hk, hv, rfl⟩
  · rintro ⟨k, v, hk, hv, rfl⟩
    exact ⟨k, hk, v, hv, _, rfl, rfl⟩

theorem setHandler_error_iff {d a : Operand} : setHandler d a s = .error c ↔
    (isNoDest d ∨ isInvalid a) ∧ c = .invalidOperand := by
  simp only [setHandler, bind_error_iff, pure_ne_error, destOf_error_iff, destOf_ok_iff, getOperand_error_iff,
    writeReg_cellOfWord]
  cases d <;> cases a <;> simp [isNoDest, isInvalid, State.getOperand]

theorem pushHandler_ok_iff {a : Operand} : pushHandler a s = .ok e ↔
    ∃ v, s.getOperand a = .ok v ∧ HasStackRoom s ∧ e = .advance { s with stack := s.stack ++ [cellOfWord v] } := by
  simp only [pushHandler, bind_ok_iff, pure_ok_iff, push_ok_iff]
  constructor
  · rintro ⟨v, hv, t, ⟨hr, rfl⟩, rfl⟩
    exact ⟨v, hv, hr, rfl⟩
  · rintro ⟨v, hv, hr, rfl⟩
    exact ⟨v, hv, _, ⟨hr, rfl⟩, rfl⟩

theorem pushHandler_error_iff {a : Operand} : pushHandler a s = .error c ↔
    isInvalid a ∧ c = .invalidOperand ∨ isInvalid a = false ∧ ¬ HasStackRoom s ∧ c = .stackOverflow := by
  simp only [pushHandler, bind_error_iff, pure_ne_error, getOperand_error_iff, push_error_iff]
  cases a <;> simp [isInvalid, State.getOperand]

theorem popHandler_ok_iff {d : Operand} : popHandler d s = .ok e ↔
    ∃ k below v, d = .register k ∧ s.stack = below ++ [v] ∧ v.toNat ≤ 32767 ∧
      e = .advance (State.setReg { s with stack := below } k v) := by
  simp only [popHandler, bind_ok_iff, pure_ok_iff, destOf_ok_iff, Prod.exists, pop_ok_iff, writeReg_ok_iff]
  constructor
  · rintro ⟨k, hk, v, t, ⟨below, hb, rfl⟩, u, ⟨hv, rfl⟩, rfl⟩
    exact ⟨k, below, v, hk, hb, hv, rfl⟩
  · rintro ⟨k, below, v, hk, hb, hv, rfl⟩
    exact ⟨k, hk, v, _, ⟨below, hb, rfl⟩, _, ⟨hv, rfl⟩, rfl⟩

theorem popHandler_error_iff {d : Operand} : popHandler d s = .error c ↔
    isNoDest d ∧ c = .invalidOperand ∨
    isNoDest d = false ∧ s.stack = [] ∧ c = .stackUnderflow ∨
    isNoDest d = false ∧ (∃ below v, s.stack = below ++ [v] ∧ 32768 ≤ v.toNat) ∧ c = .registerRangeViolation := by
  simp only [popHandler, bind_error_iff, pure_ne_error, destOf_error_iff, destOf_ok_iff, pop_error_iff, Prod.exists,
    pop_ok_iff, writeReg_error_iff]
  cases d with
  | literal v => simp [isNoDest]
  | invalid w => simp [isNoDest]
  | register k =>
    constructor
    · rintro (⟨h, -⟩ | ⟨_, -, ⟨h, rfl⟩ | ⟨v, t, ⟨below, hb, rfl⟩, ⟨hv, rfl⟩ | ⟨_, -, h⟩⟩⟩)
      · simp [isNoDest] at h
      · exact .inr (.inl ⟨rfl, h, rfl⟩)
      · exact .inr (.inr ⟨rfl, ⟨below, v, hb, hv⟩, rfl⟩)
      · exact h.elim
    · rintro (⟨h, -⟩ | ⟨-, h, rfl⟩ | ⟨-, ⟨below, v, hb, hv⟩, rfl⟩)
      · simp [isNoDest] at h
      · exact .inr ⟨k, rfl, .inl ⟨h, rfl⟩⟩
      · exact .inr ⟨k, rfl, .inr ⟨v, _, ⟨below, hb, rfl⟩, .inl ⟨hv, rfl⟩⟩⟩

theorem aluHandler3_ok_iff {op : AluOp} {d x y : Operand} : aluHandler3 op d x y s = .ok e ↔
    ∃ k vx vy r, d = .register k ∧ s.getOperand x = .ok vx ∧ s.getOperand y = .ok vy ∧ alu op vx vy = some r ∧
      e = .advance (s.setReg k (cellOfWord r)) := by
  simp only [aluHandler3, bind_ok_iff, pure_ok_iff, destOf_ok_iff, aluResult_ok_iff, writeReg_cellOfWord,
    Except.ok.injEq]
  constructor
  · rintro ⟨k, hk, vx, hx, vy, hy, r, hr, t, rfl, rfl⟩
    exact ⟨k, vx, vy, r, hk, hx, hy, hr, rfl⟩
  · rintro ⟨k, vx, vy, r, hk, hx, hy, hr, rfl⟩
    exact ⟨k, hk, vx, hx, vy, hy, r, hr, _, rfl, rfl⟩

theorem aluHandler3_error_iff {op : AluOp} {d x y : Operand} : aluHandler3 op d x y s = .error c ↔
    (isNoDest d ∨ isInvalid x ∨ isInvalid y) ∧ c = .invalidOperand ∨
    (isNoDest d = false ∧ isInvalid x = false ∧ op = .mod ∧ s.getOperand y = .ok 0) ∧ c = .divideOrModByZero := by
  simp only [aluHandler3, bind_error_iff, pure_ne_error, destOf_error_iff, destOf_ok_iff, getOperand_error_iff,
    aluResult_error_iff, writeReg_cellOfWord]
  cases d <;> cases x <;> cases y <;> simp [isNoDest, isInvalid, State.getOperand, and_assoc]

theorem aluHandler2_ok_iff {op : AluOp} {d x : Operand} : aluHandler2 op d x s = .ok e ↔
    ∃ k vx r, d = .register k ∧ s.getOperand x = .ok vx ∧ alu op vx 0 = some r ∧
      e = .advance (s.setReg k (cellOfWord r)) := by
  simp only [aluHandler2, bind_ok_iff, pure_ok_iff, destOf_ok_iff, aluResult_ok_iff, writeReg_cellOfWord,
    Except.ok.injEq]
  constructor
  · rintro ⟨k, hk, vx, hx, r, hr, t, rfl, rfl⟩
    exact ⟨k, vx, r, hk, hx, hr, rfl⟩
  · rintro ⟨k, vx, r, hk, hx, hr, rfl⟩
    exact ⟨k, hk, vx, hx, r, hr, _, rfl, rfl⟩

theorem aluHandler2_not_error_iff {d x : Operand} : aluHandler2 .not d x s = .error c ↔
    (isNoDest d ∨ isInvalid x) ∧ c = .invalidOperand := by
  simp only [aluHandler2, bind_error_iff, pure_ne_error, destOf_error_iff, destOf_ok_iff, getOperand_error_iff,
    aluResult_error_iff, writeReg_cellOfWord]
  cases d <;> cases x <;> simp [isNoDest, isInvalid, State.getOperand]

theorem jmpHandler_ok_iff {t : Operand} : jmpHandler t s = .ok e ↔
    ∃ v, s.getOperand t = .ok v ∧ e = .jump s (cellOfWord v) := by
  simp only [jmpHandler, bind_ok_iff, pure_ok_iff, eq_comm (a := e)]

theorem jmpHandler_error_iff {t : Operand} : jmpHandler t s = .error c ↔ isInvalid t ∧ c = .invalidOperand := by
  simp only [jmpHandler, bind_error_iff, pure_ne_error, getOperand_error_iff]
  simp

theorem isTrue_iff {v : Word} : isTrue v = true ↔ v ≠ 0 := by
  simp [isTrue]

theorem jtHandler_ok_iff {x t : Operand} : branchHandler true x t s = .ok e ↔
    (ResolvesToTrue s x ∧ ∃ v, s.getOperand t = .ok v ∧ e = .jump s (cellOfWord v)) ∨
    (s.getOperand x = .ok 0 ∧ e = .advance s) := by
  simp only [branchHandler, bind_ok_iff, ResolvesToTrue, isTrue_iff]
  constructor
  · rintro ⟨v, hv, h⟩
    split at h
    · next hn => exact .inl ⟨⟨v, hv, hn⟩, jmpHandler_ok_iff.1 h⟩
    · next hn => exact .inr ⟨by rw [hv, not_not.1 hn], (pure_ok_iff.1 h).symm⟩
  · rintro (⟨⟨v, hv, hn⟩, h⟩ | ⟨hv, rfl⟩)
    · exact ⟨v, hv, by rw [if_pos hn]; exact jmpHandler_ok_iff.2 h⟩
    · exact ⟨0, hv, by rw [if_neg (by simp)]; rfl⟩

theorem jfHandler_ok_iff {x t : Operand} : branchHandler false x t s = .ok e ↔
    (s.getOperand x = .ok 0 ∧ ∃ v, s.getOperand t = .ok v ∧ e = .jump s (cellOfWord v)) ∨
    (ResolvesToTrue s x ∧ e = .advance s) := by
  have hf : ∀ v : Word, isTrue v = false ↔ v = 0 := by simp [isTrue]
  simp only [branchHandler, bind_ok_iff, ResolvesToTrue, hf]
  constructor
  · rintro ⟨v, hv, h⟩
    split at h
    · next hn => exact .inl ⟨by rw [hv, hn], jmpHandler_ok_iff.1 h⟩
    · next hn => exact .inr ⟨⟨v, hv, hn⟩, (pure_ok_iff.1 h).symm⟩
  · rintro (⟨hv, h⟩ | ⟨⟨v, hv, hn⟩, rfl⟩)
    · exact ⟨0, hv, by rw [if_pos rfl]; exact jmpHandler_ok_iff.2 h⟩
    · exact ⟨v, hv, by rw [if_neg hn]; rfl⟩

theorem jtHandler_error_iff {x t : Operand} : branchHandler true x t s = .error c ↔
    (isInvalid x ∨ (ResolvesToTrue s x ∧ isInvalid t)) ∧ c = .invalidOperand := by
  simp only [branchHandler, bind_error_iff, getOperand_error_iff, ResolvesToTrue, isTrue_iff]
  constructor
  · rintro (⟨h, rfl⟩ | ⟨v, hv, h⟩)
    · exact ⟨.inl h, rfl⟩
    · split at h
      · next hn =>
        obtain ⟨ht, rfl⟩ := jmpHandler_error_iff.1 h
        exact ⟨.inr ⟨⟨v, hv, hn⟩, ht⟩, rfl⟩
      · exact absurd h pure_ne_error
  · rintro ⟨h | ⟨⟨v, hv, hn⟩, ht⟩, rfl⟩
    · exact .inl ⟨h, rfl⟩
    · exact .inr ⟨v, hv, by rw [if_pos hn]; exact jmpHandler_error_iff.2 ⟨ht, rfl⟩⟩

theorem jfHandler_error_iff {x t : Operand} : branchHandler false x t s = .error c ↔
    (isInvalid x ∨ (s.getOperand x = .ok 0 ∧ isInvalid t)) ∧ c = .invalidOperand := by
  have hf : ∀ v : Word, isTrue v = false ↔ v = 0 := by simp [isTrue]
  simp only [branchHandler, bind_error_iff, getOperand_error_iff, hf]
  constructor
  · rintro (⟨h, rfl⟩ | ⟨v, hv, h⟩)
    · exact ⟨.inl h, rfl⟩
    · split at h
      · next hn =>
        obtain ⟨ht, rfl⟩ := jmpHandler_error_iff.1 h
        exact ⟨.inr ⟨by rw [hv, hn], ht⟩, rfl⟩
      · exact absurd h pure_ne_error
  · rintro ⟨h | ⟨hv, ht⟩, rfl⟩
    · exact .inl ⟨h, rfl⟩
    · exact .inr ⟨0, hv, by rw [if_pos rfl]; exact jmpHandler_error_iff.2 ⟨ht, rfl⟩⟩

theorem callHandler_ok_iff {t : Operand} : callHandler t s = .ok e ↔
    ∃ v, s.getOperand t = .ok v ∧ HasStackRoom s ∧
      e = .jump { s with stack := s.stack ++ [s.pc + 1] } (cellOfWord v) := by
  simp only [callHandler, bind_ok_iff, pure_ok_iff, push_ok_iff]
  constructor
  · rintro ⟨v, hv, t, ⟨hr, rfl⟩, rfl⟩
    exact ⟨v, hv, hr, rfl⟩
  · rintro ⟨v, hv, hr, rfl⟩
    exact ⟨v, hv, _, ⟨hr, rfl⟩, rfl⟩

theorem callHandler_error_iff {t : Operand} : callHandler t s = .error c ↔
    isInvalid t ∧ c = .invalidOperand ∨ isInvalid t = false ∧ ¬ HasStackRoom s ∧ c = .stackOverflow := by
  simp only [callHandler, bind_error_iff, pure_ne_error, getOperand_error_iff, push_error_iff]
  cases t <;> simp [isInvalid, State.getOperand]

theorem retHandler_ok_iff : retHandler s = .ok e ↔
    ∃ below v, s.stack = below ++ [v] ∧ e = .jump { s with stack := below } v := by
  simp only [retHandler, bind_ok_iff, pure_ok_iff, Prod.exists, pop_ok_iff]
  constructor
  · rintro ⟨v, t, ⟨below, hb, rfl⟩, rfl⟩
    exact ⟨below, v, hb, rfl⟩
  · rintro ⟨below, v, hb, rfl⟩
    exact ⟨v, _, ⟨below, hb, rfl⟩, rfl⟩

theorem retHandler_error_iff : retHandler s = .error c ↔ s.stack = [] ∧ c = .stackUnderflow := by
  simp only [retHandler, bind_error_iff, pure_ne_error, pop_error_iff]
  simp

theorem writeMemHandler_ok_iff {a v : Operand} : writeMemHandler a v s = .ok e ↔
    ∃ x y, s.getOperand a = .ok x ∧ s.getOperand v = .ok y ∧ e = .advance (s.memWrite x (cellOfWord y)) := by
  simp only [writeMemHandler, bind_ok_iff, pure_ok_iff]
  constructor
  · rintro ⟨x, hx, y, hy, rfl⟩
    exact ⟨x, y, hx, hy, rfl⟩
  · rintro ⟨x, y, hx, hy, rfl⟩
    exact ⟨x, hx, y, hy, rfl⟩

theorem writeMemHandler_error_iff {a v : Operand} : writeMemHandler a v s = .error c ↔
    (isInvalid a ∨ isInvalid v) ∧ c = .invalidOperand := by
  simp only [writeMemHandler, bind_error_iff, pure_ne_error, getOperand_error_iff]
  cases a <;> cases v <;> simp [isInvalid, State.getOperand]

theorem readMemHandler_ok_iff {d a : Operand} : readMemHandler d a s = .ok e ↔
    ∃ k x, d = .register k ∧ s.getOperand a = .ok x ∧ (s.memRead x).toNat ≤ 32767 ∧
      e = .advance (s.setReg k (s.memRead x)) := by
  simp only [readMemHandler, bind_ok_iff, pure_ok_iff, destOf_ok_iff, writeReg_ok_iff]
  constructor
  · rintro ⟨k, hk, x, hx, t, ⟨hw, rfl⟩, rfl⟩
    exact ⟨k, x, hk, hx, hw, rfl⟩
  · rintro ⟨k, x, hk, hx, hw, rfl⟩
    exact ⟨k, hk, x, hx, _, ⟨hw, rfl⟩, rfl⟩

theorem readMemHandler_error_iff {d a : Operand} : readMemHandler d a s = .error c ↔
    (isNoDest d ∨ isInvalid a) ∧ c = .invalidOperand ∨
    isNoDest d = false ∧ (∃ x, s.getOperand a = .ok x ∧ 32768 ≤ (s.memRead x).toNat) ∧
      c = .registerRangeViolation := by
  simp only [readMemHandler, bind_error_iff, pure_ne_error, destOf_error_iff, destOf_ok_iff, getOperand_error_iff,
    writeReg_error_iff]
  cases d <;> cases a <;> simp [isNoDest, isInvalid, State.getOperand]

theorem outHandler_ok_iff {a : Operand} : outHandler a s = .ok e ↔
    ∃ v, s.getOperand a = .ok v ∧ e = .advance (s.emit v) := by
  simp only [outHandler, bind_ok_iff, pure_ok_iff, eq_comm (a := e)]

theorem outHandler_error_iff {a : Operand} : outHandler a s = .error c ↔ isInvalid a ∧ c = .invalidOperand := by
  simp only [outHandler, bind_error_iff, pure_ne_error, getOperand_error_iff]
  simp

theorem inputHandler_ok_iff {d : Operand} : inputHandler d s = .ok e ↔
    ∃ k v more, d = .register k ∧ s.inp = some (v :: more) ∧
      e = .advance (State.setReg { s with inp := some more } k (cellOfWord v)) := by
  simp only [inputHandler, bind_ok_iff, pure_ok_iff, destOf_ok_iff, Prod.exists, nextInput_ok_iff, writeReg_cellOfWord,
    Except.ok.injEq]
  constructor
  · rintro ⟨k, hk, v, t, ⟨more, hi, rfl⟩, u, rfl, rfl⟩
    exact ⟨k, v, more, hk, hi, rfl⟩
  · rintro ⟨k, v, more, hk, hi, rfl⟩
    exact ⟨k, hk, v, _, ⟨more, hi, rfl⟩, _, rfl, rfl⟩

theorem inputHandler_error_iff {d : Operand} : inputHandler d s = .error c ↔
    isNoDest d ∧ c = .invalidOperand ∨
    isNoDest d = false ∧ (s.inp = none ∨ s.inp = some []) ∧ c = .inputUnavailable := by
  simp only [inputHandler, bind_error_iff, pure_ne_error, destOf_error_iff, destOf_ok_iff, nextInput_error_iff,
    Prod.exists, writeReg_cellOfWord]
  cases d <;> simp [isNoDest]

theorem haltHandler_ok_iff : haltHandler s = .ok e ↔ e = .advance { s with run := .halted } := by
  simp [haltHandler, eq_comm]

theorem haltHandler_no_error : ¬ haltHandler s = .error c := by
  simp [haltHandler]

theorem noopHandler_ok_iff : noopHandler s = .ok e ↔ e = .advance s := by
  simp [noopHandler, eq_comm]

theorem noopHandler_no_error : ¬ noopHandler s = .error c := by
  simp [noopHandler]

end

end Sys2Proof.Machine
end

