-- ==== Sys2Proof/Laws/Step.lean ====
section
/-! SUPPORT. What a fetch reads and what a step can do. -/

namespace Sys2Proof.Machine

/-- The engine has a step exactly when it is RUNNING, unfaulted, with the pc below 32768 (10_state.md R35). -/
theorem hasStep_iff {s : State} :
    s.hasStep = true ↔ s.run = .running ∧ s.fault = none ∧ s.pc.toNat < 32768 := by
  simp [State.hasStep, and_assoc]

theorem Memory.window_succ {m : Memory} {a n : Nat} (h : a < 32768) :
    m.window a (n + 1) = m.read a :: m.window (a + 1) n := by
  rw [Memory.window, if_pos h]

/-- The window has as many cells as asked for, or as there are up to the last address. -/
theorem Memory.window_length (m : Memory) (a n : Nat) : (m.window a n).length = min n (32768 - a) := by
  induction n generalizing a with
  | zero => simp [Memory.window]
  | succ n ih =>
    by_cases h : a < 32768
    · rw [Memory.window_succ h, List.length_cons, ih]
      omega
    · rw [Memory.window, if_neg h]
      simp
      omega

/-- Each cell of the window is the cell of memory at its address. -/
theorem Memory.window_getElem {m : Memory} {a n j : Nat} (h : j < (m.window a n).length) :
    (m.window a n)[j] = m.read (a + j) := by
  induction n generalizing a j with
  | zero => simp [Memory.window] at h
  | succ n ih =>
    have hlen := Memory.window_length m a (n + 1)
    have ha : a < 32768 := by omega
    cases j with
    | zero => simp only [Memory.window_succ ha, List.getElem_cons_zero, Nat.add_zero]
    | succ j =>
      simp only [Memory.window_succ ha, List.getElem_cons_succ]
      rw [ih (by simpa [Memory.window_succ ha] using h)]
      congr 1
      omega

/-- A write below the window does not change it. -/
theorem Memory.window_write_below {m : Memory} {a b n : Nat} {v : Cell} (h : a < b) :
    (m.write a v).window b n = m.window b n :=
  List.ext_getElem (by simp only [Memory.window_length]) fun j _ _ => by
    rw [Memory.window_getElem, Memory.window_getElem, Memory.read_write, if_neg (by omega)]

/-- The window depends on memory alone, and a fetch on memory and the pc alone. -/
theorem fetch_congr {s t : State} (hm : t.mem = s.mem) (hp : t.pc = s.pc) : t.fetch = s.fetch := by
  simp only [State.fetch, hm, hp]

/-- A fetch inside memory decodes the opcode word and the cells after it. -/
theorem fetch_eq {s : State} (h : s.pc.toNat < 32768) :
    s.fetch = decode (s.mem.read s.pc.toNat :: s.mem.window (s.pc.toNat + 1) 3) := by
  rw [State.fetch, Memory.window_succ h]

/-- What a successful fetch reads: the opcode word at the pc is the instruction's, and all its cells are inside
memory (R110, R116). -/
theorem fetch_ok {s : State} (h : s.pc.toNat < 32768) {i : Instr} {rest : List Cell} (hf : s.fetch = .ok (i, rest)) :
    s.mem.read s.pc.toNat = opcodeCell i.opcode ∧ s.pc.toNat + i.opcode.arity < 32768 := by
  rw [fetch_eq h] at hf
  obtain ⟨op, tail, hc, o, ho, hw⟩ := decode_ok_iff.1 hf
  obtain ⟨rfl, rfl⟩ := List.cons.inj hc
  obtain ⟨hop, ws, hlen, hcells, -⟩ := withOperands_some hw
  refine ⟨by rw [hop, opcodeCell_of_opcodeOf ho], ?_⟩
  have hl := congrArg List.length hcells
  rw [Memory.window_length, List.length_append, hlen] at hl
  rw [hop]
  omega

/-- What a failed fetch means: the opcode word is unknown, or the instruction runs off the end of memory. -/
theorem fetch_error {s : State} (h : s.pc.toNat < 32768) {e : DecodeError} (hf : s.fetch = .error e) :
    (e = .unknownOpcode (s.mem.read s.pc.toNat) ∧ 22 ≤ (s.mem.read s.pc.toNat).toNat) ∨
    ∃ o, e = .truncated o ∧ opcodeOf (s.mem.read s.pc.toNat) = some o ∧ 32767 < s.pc.toNat + o.arity := by
  rw [fetch_eq h] at hf
  rcases decode_error hf with ⟨he, hn⟩ | ⟨o, he, ho, hlt⟩
  · exact .inl ⟨he, opcodeOf_eq_none.1 hn⟩
  · refine .inr ⟨o, he, ho, ?_⟩
    rw [Memory.window_length] at hlt
    have : o.arity ≤ 3 := by cases o <;> decide
    omega

theorem fetch_unknown {s : State} (h : s.pc.toNat < 32768) (hop : 22 ≤ (s.mem.read s.pc.toNat).toNat) :
    s.fetch = .error (.unknownOpcode (s.mem.read s.pc.toNat)) := by
  rw [fetch_eq h, decode, opcodeOf_eq_none.2 hop]

theorem fetch_truncated {s : State} (h : s.pc.toNat < 32768) {o : Opcode}
    (ho : opcodeOf (s.mem.read s.pc.toNat) = some o) (hlen : 32767 < s.pc.toNat + o.arity) :
    s.fetch = .error (.truncated o) := by
  cases hf : s.fetch with
  | ok r =>
    obtain ⟨hop, hlt⟩ := fetch_ok h (i := r.1) (rest := r.2) hf
    rw [hop, opcodeOf_opcodeCell] at ho
    obtain rfl := Option.some.inj ho
    omega
  | error e =>
    rcases fetch_error h hf with ⟨-, hn⟩ | ⟨o', he, ho', -⟩
    · rw [← opcodeOf_eq_none, ho] at hn
      cases hn
    · rw [ho'] at ho
      rw [he, Option.some.inj ho]

/-- An instruction whose cells stand at the pc is what the fetch reads. -/
theorem fetch_of_cellsAt {s : State} {i : Instr} (hw : i.wellFormed = true) (h : CellsAt s i) :
    ∃ rest, s.fetch = .ok (i, rest) := by
  obtain ⟨hfit, hcells⟩ := h
  have hlen : (encode i).length = i.operands.length + 1 := by simp [encode]
  have h3 : i.operands.length ≤ 3 := by cases i <;> simp [Instr.operands]
  have hpre : encode i <+: s.mem.window s.pc.toNat Config.maxCells := by
    rw [List.prefix_iff_getElem]
    have hwl := Memory.window_length s.mem s.pc.toNat Config.maxCells
    refine ⟨by simp only [Config.maxCells] at hwl ⊢; omega, fun j hj => ?_⟩
    rw [Memory.window_getElem, hcells j hj]
  obtain ⟨rest, hrest⟩ := hpre
  refine ⟨rest, ?_⟩
  rw [State.fetch, ← hrest]
  refine decode_ok_iff.2 ⟨_, _, rfl, i.opcode, opcodeOf_opcodeCell _, ?_⟩
  exact withOperands_encode i hw rest

/-- The three ways a step gives a next state. -/
inductive StepEnds (s t : State) : Prop
  | runs (i : Instr) (rest : List Cell) (hf : s.fetch = .ok (i, rest)) (h : ExecEnds i s t)
  | skips (hf : s.fetch = .error (.unknownOpcode (s.mem.read s.pc.toNat)))
      (h : 22 ≤ (s.mem.read s.pc.toNat).toNat) (ht : t = s.skipUnknown (s.mem.read s.pc.toNat))
  | offEnd (o : Opcode) (hf : s.fetch = .error (.truncated o)) (ho : opcodeOf (s.mem.read s.pc.toNat) = some o)
      (h : 32767 < s.pc.toNat + o.arity) (ht : t = s.fetchOffEnd o)

/-- What a step that gives a next state did, and that the engine had a step (R110). -/
theorem step_next {s t : State} (h : step s = .next t) : s.hasStep = true ∧ StepEnds s t := by
  unfold step at h
  split at h
  · next hs =>
    refine ⟨hs, ?_⟩
    have hpc := (hasStep_iff.1 hs).2.2
    cases hf : s.fetch with
    | ok r =>
      rw [hf] at h
      exact .runs r.1 r.2 hf (exec_next_iff.1 h)
    | error e =>
      rw [hf] at h
      rcases fetch_error hpc hf with ⟨rfl, hop⟩ | ⟨o, rfl, ho, hlt⟩
      · exact .skips hf hop (Host.Outcome.next.inj h).symm
      · exact .offEnd o hf ho hlt (Host.Outcome.next.inj h).symm
  · cases h

theorem step_runs {s : State} {i : Instr} {rest : List Cell} (hs : s.hasStep = true) (hf : s.fetch = .ok (i, rest)) :
    step s = exec i s := by
  rw [step, if_pos hs, hf]

theorem step_skips {s : State} {op : Cell} (hs : s.hasStep = true) (hf : s.fetch = .error (.unknownOpcode op)) :
    step s = .next (s.skipUnknown op) := by
  rw [step, if_pos hs, hf]

theorem step_offEnd {s : State} {o : Opcode} (hs : s.hasStep = true) (hf : s.fetch = .error (.truncated o)) :
    step s = .next (s.fetchOffEnd o) := by
  rw [step, if_pos hs, hf]

/-- While the engine has a step, the step gives a next state: nothing is refused and no instruction stops it. -/
theorem step_total {s : State} (hs : s.hasStep = true) : ∃ t, step s = .next t := by
  have hpc := (hasStep_iff.1 hs).2.2
  cases hf : s.fetch with
  | ok r =>
    obtain ⟨t, ht⟩ := exec_total r.1 s
    exact ⟨t, by rw [step_runs hs hf, ht]⟩
  | error e =>
    rcases fetch_error hpc hf with ⟨rfl, -⟩ | ⟨o, rfl, -, -⟩
    · exact ⟨_, step_skips hs hf⟩
    · exact ⟨_, step_offEnd hs hf⟩

/-- Without a step, `step` names why. -/
theorem step_stops {s : State} (hs : s.hasStep = false) : step s = .fault s.stopReason := by
  rw [step, if_neg (by simp [hs])]

end Sys2Proof.Machine
end

