-- ==== Sys2Proof/Laws/Effect.lean ====
section
/-! SUPPORT. Everything an instruction can do, said once: `exec` answers a next state of one of twelve shapes. A claim over
all instructions is a case analysis on `Effect`, not on the 22 meanings. -/

namespace Sys2Proof.Machine

/-- The pc after the generic advance, `A + n + 1` (R113). -/
def nextPc (i : Instr) (s : State) : Cell := s.pc + BitVec.ofNat 16 i.opcode.arity + 1

/-- The instructions whose whole effect is one register (R24, less `pop` and `in`). -/
def registerOnly : List Opcode := [.set, .eq, .gt, .add, .mult, .mod, .and, .or, .not, .readMem]

/-- The shapes of the state after an instruction `i` run in `s`. -/
inductive Effect (i : Instr) (s : State) : State → Prop
  | raises (cause : Cause) (h : handlerOf i (fetchedState i s) = .error cause) : Effect i s (faultState i s cause)
  | writesReg (k : Reg) (v : Cell) (hop : i.opcode ∈ registerOnly) (hd : i.operands.head? = some (.register k))
      (hv : v.toNat ≤ 32767) : Effect i s { s with regs := s.regs.set k v, pc := nextPc i s }
  | pushes (src : Operand) (v : Word) (hi : i = .push src) (hv : s.getOperand src = .ok v) (hr : HasStackRoom s) :
      Effect i s { s with stack := s.stack ++ [cellOfWord v], pc := nextPc i s }
  | pops (k : Reg) (below : List Cell) (v : Cell) (hi : i = .pop (.register k)) (hs : s.stack = below ++ [v])
      (hv : v.toNat ≤ 32767) : Effect i s { s with regs := s.regs.set k v, stack := below, pc := nextPc i s }
  | jumps (target : Cell) (hop : i.opcode ∈ [.jmp, .jt, .jf]) (ht : TransfersTo s i target)
      (hv : target.toNat ≤ 32767) : Effect i s { s with pc := target }
  | falls (hop : i.opcode ∈ [.jt, .jf, .noop]) (ht : ∀ target, ¬ TransfersTo s i target) :
      Effect i s { s with pc := nextPc i s }
  | calls (o : Operand) (v : Word) (hi : i = .call o) (hv : s.getOperand o = .ok v) (hr : HasStackRoom s) :
      Effect i s { s with stack := s.stack ++ [nextPc i s], pc := cellOfWord v }
  | returns (below : List Cell) (v : Cell) (hi : i = .ret) (hs : s.stack = below ++ [v]) :
      Effect i s { s with stack := below, pc := v }
  | stores (addr src : Operand) (a v : Word) (hi : i = .writeMem addr src) (ha : s.getOperand addr = .ok a)
      (hv : s.getOperand src = .ok v) :
      Effect i s { s with mem := s.mem.write a.toNat (cellOfWord v), pc := nextPc i s }
  | emits (src : Operand) (v : Word) (hi : i = .out src) (hv : s.getOperand src = .ok v) :
      Effect i s { s with out := s.out ++ [v], pc := nextPc i s }
  | takes (k : Reg) (c : Word) (more : List Word) (hi : i = .input (.register k)) (hs : s.inp = some (c :: more)) :
      Effect i s { s with regs := s.regs.set k (cellOfWord c), inp := some more, pc := nextPc i s }
  | halts (hi : i = .halt) : Effect i s { s with run := .halted, pc := nextPc i s }

theorem ofNat_toNat_le (v : Word) : (cellOfWord v).toNat ≤ 32767 := by
  have := v.isLt
  rw [cellOfWord_toNat]
  omega

/-- What a handler that writes one register leaves. -/
theorem writesReg_of_advance {i : Instr} {s : State} {k : Reg} {v : Cell} (hop : i.opcode ∈ registerOnly)
    (hd : i.operands.head? = some (.register k)) (hv : v.toNat ≤ 32767) :
    Effect i s { (fetchedState i s).setReg k v with pc := ((fetchedState i s).setReg k v).pc + 1 } :=
  .writesReg k v hop hd hv

theorem alu3_effect {i : Instr} {s u : State} {op : AluOp} {d b c : Operand} (hop : i.opcode ∈ registerOnly)
    (hd : i.operands.head? = some d) (h : aluHandler3 op d b c (fetchedState i s) = .ok (.advance u)) :
    Effect i s { u with pc := u.pc + 1 } := by
  obtain ⟨k, vx, vy, r, rfl, -, -, -, hu⟩ := aluHandler3_ok_iff.1 h
  obtain rfl := HandlerEnd.advance.inj hu
  exact writesReg_of_advance hop hd (ofNat_toNat_le r)

theorem alu3_no_jump {op : AluOp} {d b c : Operand} {s u : State} {g : Cell} :
    ¬ aluHandler3 op d b c s = .ok (.jump u g) := by
  simp [aluHandler3_ok_iff]

theorem getOperand_ok_unique {s : State} {o : Operand} {v w : Word} (hv : s.getOperand o = .ok v)
    (hw : s.getOperand o = .ok w) : v = w := Except.ok.inj (hv ▸ hw)

theorem not_resolvesToTrue {s : State} {o : Operand} (h : s.getOperand o = .ok 0) : ¬ ResolvesToTrue s o := by
  rintro ⟨v, hv, hn⟩
  exact hn (getOperand_ok_unique hv h)

theorem resolvesToTrue_fetched (i : Instr) (s : State) (o : Operand) :
    ResolvesToTrue (fetchedState i s) o ↔ ResolvesToTrue s o := by
  simp [ResolvesToTrue]

/-- What `exec` can answer. -/
theorem exec_effect {i : Instr} {s t : State} (h : exec i s = .next t) : Effect i s t := by
  rcases exec_next_iff.1 h with ⟨u, hu, rfl⟩ | ⟨u, g, hu, rfl⟩ | ⟨c, hc, rfl⟩
  · cases i <;> simp only [handlerOf] at hu
    case halt =>
      obtain rfl := HandlerEnd.advance.inj (haltHandler_ok_iff.1 hu)
      exact .halts rfl
    case set d a =>
      obtain ⟨k, v, rfl, -, he⟩ := setHandler_ok_iff.1 hu
      obtain rfl := HandlerEnd.advance.inj he
      exact writesReg_of_advance (by simp [Instr.opcode, registerOnly]) rfl (ofNat_toNat_le v)
    case push a =>
      obtain ⟨v, hv, hr, he⟩ := pushHandler_ok_iff.1 hu
      obtain rfl := HandlerEnd.advance.inj he
      exact .pushes a v rfl (by simpa using hv) hr
    case pop d =>
      obtain ⟨k, below, v, rfl, hb, hv, he⟩ := popHandler_ok_iff.1 hu
      obtain rfl := HandlerEnd.advance.inj he
      exact .pops k below v rfl hb hv
    case eq | gt | add | mult | mod | and | or => exact alu3_effect (by simp [Instr.opcode, registerOnly]) rfl hu
    case jmp => simp [jmpHandler_ok_iff] at hu
    case jt c t =>
      rcases jtHandler_ok_iff.1 hu with ⟨-, v, -, he⟩ | ⟨hz, he⟩
      · cases he
      · obtain rfl := HandlerEnd.advance.inj he
        refine .falls (by simp [Instr.opcode]) fun g hg => ?_
        exact not_resolvesToTrue (by simpa using hz) hg.1
    case jf c t =>
      rcases jfHandler_ok_iff.1 hu with ⟨-, v, -, he⟩ | ⟨hz, he⟩
      · cases he
      · obtain rfl := HandlerEnd.advance.inj he
        refine .falls (by simp [Instr.opcode]) fun g hg => ?_
        exact not_resolvesToTrue hg.1 ((resolvesToTrue_fetched _ _ _).1 hz)
    case not d a =>
      obtain ⟨k, vx, r, rfl, -, -, he⟩ := aluHandler2_ok_iff.1 hu
      obtain rfl := HandlerEnd.advance.inj he
      exact writesReg_of_advance (by simp [Instr.opcode, registerOnly]) rfl (ofNat_toNat_le r)
    case writeMem a v =>
      obtain ⟨x, y, hx, hy, he⟩ := writeMemHandler_ok_iff.1 hu
      obtain rfl := HandlerEnd.advance.inj he
      exact .stores a v x y rfl (by simpa using hx) (by simpa using hy)
    case readMem d a =>
      obtain ⟨k, x, rfl, -, hv, he⟩ := readMemHandler_ok_iff.1 hu
      obtain rfl := HandlerEnd.advance.inj he
      exact writesReg_of_advance (by simp [Instr.opcode, registerOnly]) rfl hv
    case call => simp [callHandler_ok_iff] at hu
    case ret => simp [retHandler_ok_iff] at hu
    case out a =>
      obtain ⟨v, hv, he⟩ := outHandler_ok_iff.1 hu
      obtain rfl := HandlerEnd.advance.inj he
      exact .emits a v rfl (by simpa using hv)
    case input d =>
      obtain ⟨k, v, more, rfl, hm, he⟩ := inputHandler_ok_iff.1 hu
      obtain rfl := HandlerEnd.advance.inj he
      exact .takes k v more rfl hm
    case noop =>
      obtain rfl := HandlerEnd.advance.inj (noopHandler_ok_iff.1 hu)
      exact .falls (by simp [Instr.opcode]) fun g hg => hg
  · cases i <;> simp only [handlerOf] at hu
    case jmp t =>
      obtain ⟨v, hv, he⟩ := jmpHandler_ok_iff.1 hu
      obtain ⟨rfl, rfl⟩ := HandlerEnd.jump.inj he
      exact .jumps _ (by simp [Instr.opcode]) ⟨v, by simpa using hv, cellOfWord_eq v⟩ (ofNat_toNat_le v)
    case jt c t =>
      rcases jtHandler_ok_iff.1 hu with ⟨hz, v, hv, he⟩ | ⟨-, he⟩
      · obtain ⟨rfl, rfl⟩ := HandlerEnd.jump.inj he
        exact .jumps _ (by simp [Instr.opcode])
          ⟨(resolvesToTrue_fetched _ _ _).1 hz, v, by simpa using hv, cellOfWord_eq v⟩ (ofNat_toNat_le v)
      · cases he
    case jf c t =>
      rcases jfHandler_ok_iff.1 hu with ⟨hz, v, hv, he⟩ | ⟨-, he⟩
      · obtain ⟨rfl, rfl⟩ := HandlerEnd.jump.inj he
        exact .jumps _ (by simp [Instr.opcode])
          ⟨by simpa using hz, v, by simpa using hv, cellOfWord_eq v⟩ (ofNat_toNat_le v)
      · cases he
    case call t =>
      obtain ⟨v, hv, hr, he⟩ := callHandler_ok_iff.1 hu
      obtain ⟨rfl, rfl⟩ := HandlerEnd.jump.inj he
      exact .calls t v rfl (by simpa using hv) hr
    case ret =>
      obtain ⟨below, v, hb, he⟩ := retHandler_ok_iff.1 hu
      obtain ⟨rfl, rfl⟩ := HandlerEnd.jump.inj he
      exact .returns below _ rfl hb
    case eq | gt | add | mult | mod | and | or => exact absurd hu alu3_no_jump
    all_goals
      simp [haltHandler_ok_iff, setHandler_ok_iff, pushHandler_ok_iff, popHandler_ok_iff, aluHandler2_ok_iff,
        writeMemHandler_ok_iff, readMemHandler_ok_iff, outHandler_ok_iff, inputHandler_ok_iff, noopHandler_ok_iff] at hu
  · exact .raises c hc

end Sys2Proof.Machine
end

