-- ==== Sys2Proof/Laws/Independence.lean ====
section
/-! SUPPORT. No handler but `halt` and `out` looks at the run state, the output stream or the diagnostic channel: it does
the same whatever they hold (10_state.md R34, R39, R41). -/

namespace Sys2Proof.Machine

/-- A state with another run state, output stream and diagnostic channel. -/
def State.relabel (s : State) (run : RunState) (out : List Word) (diag : List DiagRecord) : State :=
  { s with run := run, out := out, diag := diag }

/-- A handler's end, with its state relabelled. -/
def relabelEnd (run : RunState) (out : List Word) (diag : List DiagRecord) :
    Except Cause HandlerEnd → Except Cause HandlerEnd
  | .ok (.advance t) => .ok (.advance (t.relabel run out diag))
  | .ok (.jump t target) => .ok (.jump (t.relabel run out diag) target)
  | .error cause => .error cause

section
variable (s : State) (run : RunState) (out : List Word) (diag : List DiagRecord)

theorem getOperand_relabel (o : Operand) : (s.relabel run out diag).getOperand o = s.getOperand o := getOperand_congr rfl o

theorem writeReg_relabel (k : Reg) (v : Cell) :
    (s.relabel run out diag).writeReg k v = (s.writeReg k v).map (·.relabel run out diag) := by
  unfold State.writeReg
  split <;> rfl

theorem push_relabel (v : Cell) :
    (s.relabel run out diag).push v = (s.push v).map (·.relabel run out diag) := by
  have h : (s.relabel run out diag).stackHasRoom = s.stackHasRoom := rfl
  unfold State.push
  rw [h]
  split <;> rfl

theorem pop_relabel :
    (s.relabel run out diag).pop = s.pop.map (fun p => (p.1, p.2.relabel run out diag)) := by
  have h : (s.relabel run out diag).stack = s.stack := rfl
  unfold State.pop
  rw [h]
  split <;> rfl

theorem nextInput_relabel :
    (s.relabel run out diag).nextInput = s.nextInput.map (fun p => (p.1, p.2.relabel run out diag)) := by
  have h : (s.relabel run out diag).inp = s.inp := rfl
  unfold State.nextInput
  rw [h]
  split <;> rfl

theorem jmpHandler_relabel (t : Operand) :
    jmpHandler t (s.relabel run out diag) = relabelEnd run out diag (jmpHandler t s) := by
  simp only [jmpHandler, getOperand_relabel]
  cases s.getOperand t <;> rfl

theorem branchHandler_relabel (b : Bool) (c t : Operand) :
    branchHandler b c t (s.relabel run out diag) = relabelEnd run out diag (branchHandler b c t s) := by
  simp only [branchHandler, getOperand_relabel, jmpHandler_relabel]
  cases s.getOperand c with
  | error e => rfl
  | ok v =>
    change (if isTrue v = b then _ else _) = relabelEnd run out diag (if isTrue v = b then _ else _)
    split <;> rfl

theorem aluHandler3_relabel (op : AluOp) (d b c : Operand) :
    aluHandler3 op d b c (s.relabel run out diag) = relabelEnd run out diag (aluHandler3 op d b c s) := by
  simp only [aluHandler3, getOperand_relabel, writeReg_cellOfWord]
  cases destOf d with
  | error e => rfl
  | ok k =>
    cases s.getOperand b with
    | error e => rfl
    | ok x =>
      cases s.getOperand c with
      | error e => rfl
      | ok y =>
        change (aluResult op x y >>= _) = relabelEnd run out diag (aluResult op x y >>= _)
        cases aluResult op x y <;> rfl

/-- A handler does the same whatever the run state, the output and the diagnostics are. -/
theorem handlerOf_relabel {i : Instr} (hh : i.opcode ≠ .halt) (ho : i.opcode ≠ .out) :
    handlerOf i (s.relabel run out diag) = relabelEnd run out diag (handlerOf i s) := by
  cases i with
  | halt => exact absurd rfl hh
  | out => exact absurd rfl ho
  | eq | gt | add | mult | mod | and | or => exact aluHandler3_relabel ..
  | jmp => exact jmpHandler_relabel ..
  | jt | jf => exact branchHandler_relabel ..
  | noop => rfl
  | set d a =>
    simp only [handlerOf, setHandler, getOperand_relabel, writeReg_cellOfWord]
    cases destOf d <;> cases s.getOperand a <;> rfl
  | push a =>
    simp only [handlerOf, pushHandler, getOperand_relabel]
    cases s.getOperand a with
    | error e => rfl
    | ok v =>
      change (State.push _ _ >>= _) = relabelEnd run out diag (State.push _ _ >>= _)
      rw [push_relabel]
      cases s.push (cellOfWord v) <;> rfl
  | call a =>
    simp only [handlerOf, callHandler, getOperand_relabel]
    cases s.getOperand a with
    | error e => rfl
    | ok v =>
      change (State.push _ _ >>= _) = relabelEnd run out diag (State.push _ _ >>= _)
      rw [push_relabel]
      change ((s.push (s.pc + 1)).map _ >>= _) = _
      cases s.push (s.pc + 1) <;> rfl
  | pop d =>
    simp only [handlerOf, popHandler, pop_relabel]
    cases destOf d with
    | error e => rfl
    | ok k =>
      cases s.pop with
      | error e => rfl
      | ok p =>
        change (State.writeReg _ k p.1 >>= _) = relabelEnd run out diag (State.writeReg _ k p.1 >>= _)
        rw [writeReg_relabel]
        cases p.2.writeReg k p.1 <;> rfl
  | ret =>
    simp only [handlerOf, retHandler, pop_relabel]
    cases s.pop <;> rfl
  | not d a =>
    simp only [handlerOf, aluHandler2, getOperand_relabel, writeReg_cellOfWord]
    cases destOf d <;> cases s.getOperand a <;> rfl
  | writeMem a v =>
    simp only [handlerOf, writeMemHandler, getOperand_relabel]
    cases s.getOperand a <;> cases s.getOperand v <;> rfl
  | readMem d a =>
    simp only [handlerOf, readMemHandler, getOperand_relabel]
    cases destOf d with
    | error e => rfl
    | ok k =>
      cases s.getOperand a with
      | error e => rfl
      | ok x =>
        change (State.writeReg _ k (s.memRead x) >>= _) = relabelEnd run out diag (State.writeReg _ k (s.memRead x) >>= _)
        rw [writeReg_relabel]
        cases s.writeReg k (s.memRead x) <;> rfl
  | input d =>
    simp only [handlerOf, inputHandler, nextInput_relabel, writeReg_cellOfWord]
    cases destOf d with
    | error e => rfl
    | ok k => cases s.nextInput <;> rfl

/-- So does `exec`: it commutes with relabelling. -/
theorem exec_relabel {s t : State} {i : Instr} (hh : i.opcode ≠ .halt) (ho : i.opcode ≠ .out) (h : exec i s = .next t)
    (run : RunState) (out : List Word) (diag : List DiagRecord) :
    exec i (s.relabel run out diag) = .next (t.relabel run out diag) := by
  have hf : fetchedState i (s.relabel run out diag) = (fetchedState i s).relabel run out diag := rfl
  have hr := handlerOf_relabel (fetchedState i s) run out diag hh ho
  rcases exec_next_iff.1 h with ⟨u, hu, rfl⟩ | ⟨u, g, hu, rfl⟩ | ⟨c, hc, rfl⟩
  · exact exec_advance (by rw [hf, hr, hu, relabelEnd])
  · exact exec_jump (by rw [hf, hr, hu, relabelEnd])
  · exact exec_raise (by rw [hf, hr, hc, relabelEnd])

end

end Sys2Proof.Machine
end

