-- ==== Sys2Proof/Laws/PerInstr.lean ====
section
/-! SUPPORT. Statements about every instruction, one lemma per constructor. `EncodedLength`: an instruction is its opcode
word followed by as many cells as its opcode's arity (30_encoding.md R80). -/

namespace Sys2Proof.Laws.EncodedLength

/-- The encoding starts with the opcode's number and has 1 + arity cells. -/
def Statement (i : Instr) : Prop :=
  (encode i).head? = some (opcodeCell i.opcode) ∧ (encode i).length = i.opcode.arity + 1

theorem halt : Statement .halt := ⟨rfl, rfl⟩

theorem set (a b : Operand) : Statement (.set a b) := ⟨rfl, rfl⟩

theorem push (a : Operand) : Statement (.push a) := ⟨rfl, rfl⟩

theorem pop (a : Operand) : Statement (.pop a) := ⟨rfl, rfl⟩

theorem eq (a b c : Operand) : Statement (.eq a b c) := ⟨rfl, rfl⟩

theorem gt (a b c : Operand) : Statement (.gt a b c) := ⟨rfl, rfl⟩

theorem jmp (a : Operand) : Statement (.jmp a) := ⟨rfl, rfl⟩

theorem jt (a b : Operand) : Statement (.jt a b) := ⟨rfl, rfl⟩

theorem jf (a b : Operand) : Statement (.jf a b) := ⟨rfl, rfl⟩

theorem add (a b c : Operand) : Statement (.add a b c) := ⟨rfl, rfl⟩

theorem mult (a b c : Operand) : Statement (.mult a b c) := ⟨rfl, rfl⟩

theorem mod (a b c : Operand) : Statement (.mod a b c) := ⟨rfl, rfl⟩

theorem and (a b c : Operand) : Statement (.and a b c) := ⟨rfl, rfl⟩

theorem or (a b c : Operand) : Statement (.or a b c) := ⟨rfl, rfl⟩

theorem not (a b : Operand) : Statement (.not a b) := ⟨rfl, rfl⟩

theorem writeMem (a b : Operand) : Statement (.writeMem a b) := ⟨rfl, rfl⟩

theorem readMem (a b : Operand) : Statement (.readMem a b) := ⟨rfl, rfl⟩

theorem call (a : Operand) : Statement (.call a) := ⟨rfl, rfl⟩

theorem ret : Statement .ret := ⟨rfl, rfl⟩

theorem out (a : Operand) : Statement (.out a) := ⟨rfl, rfl⟩

theorem input (a : Operand) : Statement (.input a) := ⟨rfl, rfl⟩

theorem noop : Statement .noop := ⟨rfl, rfl⟩

end Sys2Proof.Laws.EncodedLength
end

