-- ==== Sys2Proof/Tests/Slice0.lean ====
section
/-! SUPPORT. Tests of the model, and a witness for the hypotheses of each statement. Every expected result of a test is
taken from spec/95_test_vectors.md (the vector is named) or worked out by hand from the rule named, never from the model. -/

namespace Sys2Proof.Tests

open Sys2Proof Sys2Proof.Machine

/-! ## Helpers -/

/-- The launch state of an image (R262), with this `INPUT` and an unbounded stack. -/
def launched (image : List Cell) (input : Option (List Word) := none) : State :=
  match launch image input none with
  | .loaded s => s
  | .rejected => State.reset

/-- The state after one step; none where the engine has no step. -/
def afterStep (s : State) : Option State :=
  match step s with
  | .next t => some t
  | .fault _ => none
  | .refused _ => none

/-- Register 0 and the pc after one step. -/
def reg0AndPc (s : State) : Option (Cell × Cell) := (afterStep s).map fun t => (t.readReg 0, t.pc)

/-- The fault record and the pc after one step. -/
def faultAndPc (s : State) : Option (Option FaultRecord × Cell) := (afterStep s).map fun t => (t.fault, t.pc)

/-- The fault record of a cause, an opcode word and an address. -/
def record (cause : Cause) (opcode addr : Cell) : Option FaultRecord :=
  some { cause := cause, opcode := opcode, addr := addr }

/-! ## WellFormed: the one check, on an operand of the invalid class (R82) -/

theorem test_wellFormed_refuses_literal_word : (Instr.push (.invalid 5)).wellFormed = false := by decide

theorem test_wellFormed_refuses_register_word : (Instr.set (.invalid 32775) (.literal 0)).wellFormed = false := by
  decide

theorem test_wellFormed_checks_third_operand :
    (Instr.add (.register 0) (.literal 1) (.invalid 32767)).wellFormed = false := by decide

theorem test_wellFormed_accepts : (Instr.set (.register 7) (.invalid 32776)).wellFormed = true := by decide

/-! ## Decode: each row's words written out from R82, R86

Opcode word bits 15..0, then each operand word: bit 15 clear is a literal, `0x8000 + k` is register k. -/

theorem test_decode_halt : decode [0b0000000000000000] = .ok (.halt, []) := by decide
theorem test_decode_set :
    decode [0b0000000000000001, 0b1000000000000011, 0b0011000000111001] =
      .ok (.set (.register 3) (.literal 12345), []) := by decide
theorem test_decode_push : decode [0b0000000000000010, 0b1000000000000010] = .ok (.push (.register 2), []) := by decide
theorem test_decode_pop : decode [0b0000000000000011, 0b1000000000000101] = .ok (.pop (.register 5), []) := by decide
theorem test_decode_eq :
    decode [0b0000000000000100, 0b1000000000000000, 0b0000000000000100, 0b0000000000000101] =
      .ok (.eq (.register 0) (.literal 4) (.literal 5), []) := by decide
theorem test_decode_gt :
    decode [0b0000000000000101, 0b1000000000000011, 0b1000000000000010, 0b1000000000000000] =
      .ok (.gt (.register 3) (.register 2) (.register 0), []) := by decide
theorem test_decode_jmp : decode [0b0000000000000110, 0b0111111111111111] = .ok (.jmp (.literal 32767), []) := by decide
theorem test_decode_jt :
    decode [0b0000000000000111, 0b1000000000000000, 0b0000000000000011] =
      .ok (.jt (.register 0) (.literal 3), []) := by decide
theorem test_decode_jf :
    decode [0b0000000000001000, 0b1000000000000001, 0b0000000000110010] =
      .ok (.jf (.register 1) (.literal 50), []) := by decide
theorem test_decode_add :
    decode [0b0000000000001001, 0b1000000000000000, 0b0000000000001010, 0b0000000000000101] =
      .ok (.add (.register 0) (.literal 10) (.literal 5), []) := by decide
theorem test_decode_mult :
    decode [0b0000000000001010, 0b1000000000000001, 0b1000000000000001, 0b1000000000000001] =
      .ok (.mult (.register 1) (.register 1) (.register 1), []) := by decide
theorem test_decode_mod :
    decode [0b0000000000001011, 0b1000000000000001, 0b1000000000000000, 0b0000000001100100] =
      .ok (.mod (.register 1) (.register 0) (.literal 100), []) := by decide
theorem test_decode_and :
    decode [0b0000000000001100, 0b1000000000000000, 0b1000000000000001, 0b0000000011111111] =
      .ok (.and (.register 0) (.register 1) (.literal 255), []) := by decide
theorem test_decode_or :
    decode [0b0000000000001101, 0b1000000000000111, 0b0101010101010101, 0b0011001100110011] =
      .ok (.or (.register 7) (.literal 21845) (.literal 13107), []) := by decide
theorem test_decode_not :
    decode [0b0000000000001110, 0b1000000000000010, 0b1000000000000001] =
      .ok (.not (.register 2) (.register 1), []) := by decide
theorem test_decode_writeMem :
    decode [0b0000000000001111, 0b0000000001100100, 0b1000000000000001] =
      .ok (.writeMem (.literal 100) (.register 1), []) := by decide
theorem test_decode_readMem :
    decode [0b0000000000010000, 0b1000000000000000, 0b0000000000010100] =
      .ok (.readMem (.register 0) (.literal 20), []) := by decide
theorem test_decode_call : decode [0b0000000000010001, 0b0000000000000110] = .ok (.call (.literal 6), []) := by decide
theorem test_decode_ret : decode [0b0000000000010010] = .ok (.ret, []) := by decide
theorem test_decode_out : decode [0b0000000000010011, 0b0000000001000001] = .ok (.out (.literal 65), []) := by decide
theorem test_decode_in : decode [0b0000000000010100, 0b1000000000000000] = .ok (.input (.register 0), []) := by decide
theorem test_decode_noop : decode [0b0000000000010101, 0] = .ok (.noop, [0]) := by decide

/-- R90: 22, the first register word and the last word are no opcode. -/
theorem test_decode_unknown :
    decode [22, 1, 2, 3] = .error (.unknownOpcode 22) ∧ decode [32768] = .error (.unknownOpcode 32768) ∧
      decode [65535] = .error (.unknownOpcode 65535) := by decide

/-- R116: a known opcode with too few words after it; no word at all. -/
theorem test_decode_short : decode [9, 32768, 10] = .error (.truncated .add) ∧ decode [] = .error .noOpcode := by decide

/-- The number 65·2^16 + 19 is the table's numbering of `[19, 65]`; the row of `add` gives 16 bits in the table where its
operand words are zeros. -/
theorem test_decodeTableWord :
    decodeTableWord 32 (65 * 2 ^ 16 + 19) = some (.out (.literal 65)) ∧
      decodeTableWord 16 9 = some (.add (.literal 0) (.literal 0) (.literal 0)) ∧ decodeTableWord 16 22 = none := by
  decide

/-- The first step after reset runs the placed instruction: `out 65` (95, S-A). -/
theorem test_withFetchWord_runs :
    (afterStep (State.reset.withFetchWord 32 (65 * 2 ^ 16 + 19))).map (fun t => (t.out, t.pc)) = some ([65], 2) := by
  decide

/-! ## One step of each instruction -/

/-- V-MOVE. -/
theorem test_set : reg0AndPc (launched [1, 32768, 32767]) = some (32767, 3) := by decide
/-- V-MOVE: a literal destination faults, `[1, 5, 9]`. -/
theorem test_set_no_dest : faultAndPc (launched [1, 5, 9]) = some (record .invalidOperand 1 0, 2) := by decide
/-- V-MOVE: `push r2`, x2 = 31000. -/
theorem test_push :
    (afterStep ((launched [2, 32770]).setReg 2 31000)).map (fun t => (t.stack, t.pc)) = some ([31000], 2) := by decide
/-- V-MOVE: `push .word 65535`; R31: a finite stack that is full, pc = A + n (R229). -/
theorem test_push_faults :
    faultAndPc (launched [2, 65535]) = some (record .invalidOperand 2 0, 1) ∧
      faultAndPc { launched [2, 5] with stackDepth := some 0 } = some (record .stackOverflow 2 0, 1) := by decide
/-- V-MOVE: `pop r0`, stack `[4, 9]`. -/
theorem test_pop :
    (afterStep { launched [3, 32768] with stack := [4, 9] }).map (fun t => (t.readReg 0, t.stack, t.pc)) =
      some (9, [4], 2) := by decide
/-- V-MOVE: `pop r0`, stack `[32768]`; F1: stack empty. -/
theorem test_pop_faults :
    (afterStep { launched [3, 32768] with stack := [32768] }).map (fun t => (t.fault, t.stack, t.pc)) =
        some (record .registerRangeViolation 3 0, [32768], 1) ∧
      faultAndPc (launched [3, 32768]) = some (record .stackUnderflow 3 0, 1) := by decide
/-- V-CMP. -/
theorem test_eq : reg0AndPc ((launched [4, 32768, 32769, 5]).setReg 1 5) = some (1, 4) := by decide
/-- V-CMP. -/
theorem test_eq_differs : reg0AndPc ((launched [4, 32768, 4, 5]).setReg 0 9) = some (0, 4) := by decide
/-- V-CMP: no sign bit. -/
theorem test_gt : reg0AndPc (launched [5, 32768, 16384, 16383]) = some (1, 4) := by decide
/-- V-CMP: equal is not greater. -/
theorem test_gt_equal : reg0AndPc ((launched [5, 32768, 5, 5]).setReg 0 9) = some (0, 4) := by decide
/-- V-JUMP: `jmp r0`, x0 = 77. -/
theorem test_jmp : reg0AndPc ((launched [6, 32768]).setReg 0 77) = some (77, 77) := by decide
/-- V-JUMP: `jmp .word 40000`. -/
theorem test_jmp_invalid : faultAndPc (launched [6, 40000]) = some (record .invalidOperand 6 0, 1) := by decide
/-- V-JUMP: `jt r0, 50`, x0 = 32767. -/
theorem test_jt_taken : faultAndPc ((launched [7, 32768, 50]).setReg 0 32767) = some (none, 50) := by decide
/-- V-JUMP: not taken, the target word is not used. -/
theorem test_jt_not_taken : faultAndPc (launched [7, 0, 65535]) = some (none, 3) := by decide
/-- V-JUMP: `jf r0, 50`, x0 = 0. -/
theorem test_jf_taken : faultAndPc (launched [8, 32768, 50]) = some (none, 50) := by decide
/-- V-JUMP: taken with an invalid target. -/
theorem test_jf_invalid : faultAndPc (launched [8, 0, 65535]) = some (record .invalidOperand 8 0, 2) := by decide
/-- V-ADD: sources that are the destination, and a wrap: x0 = 20000 gives 7232. -/
theorem test_add : reg0AndPc ((launched [9, 32768, 32768, 32768]).setReg 0 20000) = some (7232, 4) := by decide
/-- V-ADD: 32767 + 1. -/
theorem test_add_wraps : reg0AndPc ((launched [9, 32768, 32767, 1]).setReg 0 5) = some (0, 4) := by decide
/-- V-MULT. -/
theorem test_mult : reg0AndPc (launched [10, 32768, 181, 182]) = some (174, 4) := by decide
/-- V-MULT: the largest product. -/
theorem test_mult_largest : reg0AndPc (launched [10, 32768, 32767, 32767]) = some (1, 4) := by decide
/-- V-MOD. -/
theorem test_mod : reg0AndPc (launched [11, 32768, 12345, 100]) = some (45, 4) := by decide
/-- F2; V-MOD: a bad destination and a zero divisor, InvalidOperand first (R231). -/
theorem test_mod_faults :
    faultAndPc (launched [11, 32768, 7, 0]) = some (record .divideOrModByZero 11 0, 3) ∧
      faultAndPc (launched [11, 5, 7, 0]) = some (record .invalidOperand 11 0, 3) := by decide
/-- V-LOGIC. -/
theorem test_and : reg0AndPc ((launched [12, 32768, 32769, 255]).setReg 1 12345) = some (57, 4) := by decide
/-- V-LOGIC. -/
theorem test_or : reg0AndPc (launched [13, 32768, 21845, 13107]) = some (30583, 4) := by decide
/-- V-LOGIC: the complement of the content 45, not of the word 32769. -/
theorem test_not : reg0AndPc ((launched [14, 32768, 32769]).setReg 1 45) = some (32722, 3) := by decide
/-- V-LOGIC: 15 bits. -/
theorem test_not_zero : reg0AndPc (launched [14, 32768, 0]) = some (32767, 3) := by decide
/-- V-MEM: `write-mem r0, r1`, x0 = 300, x1 = 49: the first operand is the address. -/
theorem test_writeMem :
    (afterStep (((launched [15, 32768, 32769]).setReg 0 300).setReg 1 49)).map
      (fun t => (t.memRead 300, t.memRead 49, t.pc)) = some (49, 0, 3) := by decide
/-- V-MEM: its own operand cell; the address used is the one fetched. -/
theorem test_writeMem_self :
    (afterStep (launched [15, 1, 5])).map (fun t => (t.memRead 1, t.memRead 2, t.pc)) = some (5, 5, 3) := by decide
/-- V-MEM: `read-mem r0, 3`. -/
theorem test_readMem : reg0AndPc (launched [16, 32768, 3, 777]) = some (777, 3) := by decide
/-- V-MEM: cell 1 holds 32768 (F5). -/
theorem test_readMem_wide :
    faultAndPc (launched [16, 32768, 1]) = some (record .registerRangeViolation 16 0, 2) := by decide
/-- V-CALL: `call r0` at A = 10, x0 = 200, stack `[5]`. -/
theorem test_call :
    (afterStep { (launched [0, 0, 0, 0, 0, 0, 0, 0, 0, 0, 17, 32768]).setReg 0 200 with
      pc := 10, stack := [5] }).map (fun t => (t.stack, t.pc)) = some ([5, 12], 200) := by decide
/-- V-CALL: `call 9` at A = 32766 pushes 32768, unreduced. -/
theorem test_call_last :
    (afterStep { State.reset with mem := [(32766, 17), (32767, 9)], pc := 32766 }).map (fun t => (t.stack, t.pc)) =
      some ([32768], 9) := by decide
/-- V-CALL: `ret`, stack `[100, 7]`. -/
theorem test_ret :
    (afterStep { launched [18] with stack := [100, 7] }).map (fun t => (t.stack, t.pc)) = some ([100], 7) := by decide
/-- F6. -/
theorem test_ret_empty : faultAndPc (launched [18]) = some (record .stackUnderflow 18 0, 0) := by decide
/-- V-SYS, S-B: pc = 1. -/
theorem test_halt :
    (afterStep (launched [0])).map (fun t => (t.status, t.pc, t.out)) = some (.halted, 1, []) := by decide
/-- V-SYS: no range restriction on the code. -/
theorem test_out :
    (afterStep (launched [19, 32767, 0])).map (fun t => (t.out, t.pc)) = some ([32767], 2) := by decide
/-- V-SYS: `in r0`, INPUT `[104, 105]`. -/
theorem test_in :
    (afterStep (launched [20, 32768, 0] (some [104, 105]))).map (fun t => (t.readReg 0, t.inp, t.pc)) =
      some (104, some [105], 2) := by decide
/-- V-SYS: `in 0` consumes nothing; `in r0` with no input stream, and with an empty one. -/
theorem test_in_faults :
    (afterStep (launched [20, 0] (some [104]))).map (fun t => (t.fault, t.inp, t.pc)) =
        some (record .invalidOperand 20 0, some [104], 1) ∧
      faultAndPc (launched [20, 32768]) = some (record .inputUnavailable 20 0, 1) ∧
      faultAndPc (launched [20, 32768] (some [])) = some (record .inputUnavailable 20 0, 1) := by decide
/-- V-SYS. -/
theorem test_noop : (afterStep (launched [21, 0])).map (fun t => (t.status, t.pc)) = some (.running, 1) := by decide

/-! ## Faults, unknown opcodes, the end of memory -/

/-- F7: `jmp` in the last cell. -/
theorem test_fault_fetch :
    faultAndPc { State.reset with mem := [(32767, 6)], pc := 32767 } =
      some (record .fetchOutOfRange 6 32767, 32768) := by decide
/-- R221: the codes of the causes. -/
theorem test_cause_codes :
    [Cause.stackUnderflow, .divideOrModByZero, .invalidOperand, .fetchOutOfRange, .registerRangeViolation,
      .inputUnavailable, .stackOverflow].map Cause.code = [2, 3, 4, 5, 6, 7, 8] := by decide
/-- V-SYS, S-D: one record, one word skipped, no fault. -/
theorem test_unknown :
    (afterStep (launched [22, 21, 0])).map (fun t => (t.diag, t.fault, t.pc)) =
      some ([{ addr := 0, opcode := 22 }], none, 1) := by decide
/-- P4: `noop` in the last cell, then EXHAUSTED. -/
theorem test_exhausted :
    (afterStep { State.reset with mem := [(32767, 21)], pc := 32767 }).map (fun t => (t.status, t.pc)) =
      some (.exhausted, 32768) := by decide
/-- R231: an unknown opcode in the last cell is skipped, not a FetchOutOfRange. -/
theorem test_unknown_last :
    (afterStep { State.reset with mem := [(32767, 22)], pc := 32767 }).map (fun t => (t.fault, t.pc)) =
      some (none, 32768) := by decide
/-- S-D: three dispatch steps, the third halts. -/
theorem test_scenario_d :
    runFor 3 (launched [22, 21, 0]) = .ended .halted
      { launched [22, 21, 0] with run := .halted, pc := 3, diag := [{ addr := 0, opcode := 22 }] } := by decide
/-- R56: low byte first; R57, R243: an odd number of bytes. -/
theorem test_image_bytes :
    imageOfBytes [0x13, 0x00, 0x34, 0x12] = some [0x0013, 0x1234] ∧ imageOfBytes [1, 2, 3] = none := by decide

/-! ## Witnesses

One for each statement that has hypotheses: a concrete state and operands that meet them all together, and a boundary value
for each clause. `ran` is the next state of an instruction. -/

/-- The state after an instruction run in `s`. -/
def ran (i : Instr) (s : State) : State :=
  match exec i s with
  | .next t => t
  | .fault _ => s
  | .refused _ => s

/-- The state after a step. -/
def stepped (s : State) : State :=
  match step s with
  | .next t => t
  | .fault _ => s
  | .refused _ => s

theorem witness_DecodeOfEncode :
    Instr.halt.wellFormed = true ∧ (Instr.jmp (.literal 32767)).wellFormed = true ∧
      (Instr.jt (.register 0) (.invalid 65535)).wellFormed = true ∧
      (Instr.add (.register 7) (.literal 0) (.invalid 32776)).wellFormed = true := by decide

theorem witness_EncodeOfDecode :
    decode [9, 32775, 32767, 65535, 0] = .ok (.add (.register 7) (.literal 32767) (.invalid 65535), [0]) := by decide

theorem witness_UnknownOpcodesRefused :
    decode [22] = .error (.unknownOpcode 22) ∧ 22 ≤ (22 : Cell).toNat ∧ 22 ≤ (65535 : Cell).toNat ∧
      ¬ 22 ≤ (21 : Cell).toNat := by decide

theorem witness_OperandWordClasses :
    (0 : Cell).toNat ≤ 32767 ∧ (32767 : Cell).toNat ≤ 32767 ∧ (32768 : Cell).toNat = 32768 + (0 : Reg).val ∧
      (32775 : Cell).toNat = 32768 + (7 : Reg).val ∧ 32776 ≤ (32776 : Cell).toNat ∧
      32776 ≤ (65535 : Cell).toNat := by decide

theorem witness_GetResolvesOperands :
    RegsAreWords ((launched []).setReg 7 32767) ∧ (32767 : Cell).toNat ≤ 32767 ∧
      (32775 : Cell).toNat = 32768 + (7 : Reg).val ∧ 32776 ≤ (32776 : Cell).toNat ∧
      { (launched []).setReg 7 32767 with pc := 5, stack := [1] }.regs = ((launched []).setReg 7 32767).regs := by
  unfold RegsAreWords; decide

theorem witness_MemWriteSetsOneCell :
    step (launched [15, 32767, 5]) = .next (stepped (launched [15, 32767, 5])) ∧
      (stepped (launched [15, 32767, 5])).mem ≠ (launched [15, 32767, 5]).mem ∧
      step (launched [21]) = .next (stepped (launched [21])) := ⟨rfl, by decide, rfl⟩

theorem witness_CanonicalMemoriesAgree :
    Memory.wf (Memory.write (Memory.write [] 7 2) 5 1) = true ∧ Memory.wf [(5, 1), (7, 2)] = true ∧
      ∀ a : Word, (Memory.write (Memory.write [] 7 2) 5 1).read a.toNat = Memory.read [(5, 1), (7, 2)] a.toNat :=
  ⟨by decide, by decide, fun _ => rfl⟩

theorem witness_AluExactResults : (1 : Word) ≠ 0 ∧ (32767 : Word) ≠ 0 := by decide

theorem witness_SetWritesRegister :
    (launched []).getOperand (.literal 32767) = .ok 32767 ∧
      ((launched []).setReg 3 9).getOperand (.register 3) = .ok 9 := by decide

theorem witness_PushAppendsValue :
    (launched []).getOperand (.literal 0) = .ok 0 ∧ HasStackRoom (launched []) ∧
      HasStackRoom { launched [] with stackDepth := some 1 } :=
  ⟨by decide, .inl rfl, .inr ⟨1, rfl, by decide⟩⟩

theorem witness_PopTakesTail :
    { launched [] with stack := [4, 32767] }.stack = [4] ++ [32767] ∧ (32767 : Cell).toNat ≤ 32767 ∧
      { launched [] with stack := [0] }.stack = [] ++ [0] := by decide

theorem witness_ComparesWriteOneOrZero :
    (launched []).getOperand (.literal 32767) = .ok 32767 ∧ (launched []).getOperand (.register 0) = .ok 0 := by decide

theorem witness_JumpsGoToTarget :
    (launched []).getOperand (.register 0) = .ok 0 ∧ (launched []).getOperand (.literal 1) = .ok 1 ∧ (1 : Word) ≠ 0 ∧
      (launched []).getOperand (.literal 32767) = .ok 32767 := by decide

theorem witness_CallPushesReturnAddress :
    { launched [] with pc := 32766 }.getOperand (.literal 9) = .ok 9 ∧ HasStackRoom { launched [] with pc := 32766 } ∧
      HasStackRoom { launched [] with stackDepth := some 1 } :=
  ⟨by decide, .inl rfl, .inr ⟨1, rfl, by decide⟩⟩

theorem witness_RetPopsPc :
    { launched [] with stack := [5, 32768] }.stack = [5] ++ [32768] ∧
      { launched [] with stack := [0] }.stack = [] ++ [0] := by decide

theorem witness_ArithmeticIsExactModulo :
    (launched []).getOperand (.literal 32767) = .ok 32767 ∧ (launched []).getOperand (.literal 1) = .ok 1 ∧
      (1 : Word) ≠ 0 ∧ (launched []).getOperand (.register 0) = .ok 0 := by decide

theorem witness_LogicWorksOnFifteenBits :
    (launched []).getOperand (.literal 32767) = .ok 32767 ∧ (launched []).getOperand (.register 0) = .ok 0 := by decide

theorem witness_WriteMemStoresCell :
    (launched []).getOperand (.literal 32767) = .ok 32767 ∧ (launched []).getOperand (.register 0) = .ok 0 ∧
      (0 : Word) ≠ 32767 := by decide

theorem witness_ReadMemLoadsCell :
    (launched [32767, 32768]).getOperand (.literal 0) = .ok 0 ∧
      ((launched [32767, 32768]).memRead 0).toNat ≤ 32767 := by decide

theorem witness_HaltStopsTheRun :
    (launched []).hasStep = true ∧ (launched []).mem.read (launched []).pc.toNat = 0 ∧
      { launched [] with pc := 32767 }.hasStep = true ∧ { launched [] with pc := 32767 }.mem.read 32767 = 0 := by decide

theorem witness_NoopOnlyAdvances :
    (launched [21]).hasStep = true ∧ (launched [21]).mem.read (launched [21]).pc.toNat = 21 := by decide

theorem witness_OutEmitsCode :
    (launched []).getOperand (.literal 32767) = .ok 32767 ∧ (launched []).getOperand (.register 0) = .ok 0 := by decide

theorem witness_InConsumesOneCode : (launched [] (some [32767, 0])).inp = some (32767 :: [0]) := by decide

theorem witness_BadOperandFaults :
    UsesBadOperand (launched []) (.set (.literal 5) (.literal 9)) ∧
      UsesBadOperand (launched []) (.jt (.literal 1) (.invalid 32776)) ∧
      UsesBadOperand (launched []) (.jf (.register 0) (.invalid 65535)) ∧ (launched []).fault = none ∧
      exec (.push (.invalid 65535)) (launched []) = .next (ran (.push (.invalid 65535)) (launched [])) ∧
      (ran (.push (.invalid 65535)) (launched [])).fault = record .invalidOperand 2 0 :=
  ⟨.inl rfl, .inr ⟨⟨1, rfl, by decide⟩, rfl⟩, .inr ⟨by decide, rfl⟩, rfl, rfl, by decide⟩

theorem witness_EmptyStackFaults : (launched []).stack = [] := by decide

theorem witness_ZeroDivisorFaults :
    (launched []).getOperand (.literal 7) = .ok 7 ∧ (launched []).getOperand (.register 0) = .ok 0 ∧
      (launched []).getOperand (.literal 0) = .ok 0 := by decide

theorem witness_WideValueFaults :
    (launched [32768, 65535]).getOperand (.literal 0) = .ok 0 ∧ 32768 ≤ ((launched [32768, 65535]).memRead 0).toNat ∧
      32768 ≤ ((launched [32768, 65535]).memRead 1).toNat ∧
      { launched [] with stack := [4, 32768] }.stack = [4] ++ [32768] ∧ 32768 ≤ (32768 : Cell).toNat := by decide

theorem witness_NoInputFaults : (launched []).inp = none ∧ (launched [] (some [])).inp = some [] := by decide

theorem witness_FullStackFaults :
    { launched [] with stackDepth := some 0 }.getOperand (.literal 5) = .ok 5 ∧
      { launched [] with stackDepth := some 0 }.stackDepth = some 0 ∧
      0 ≤ { launched [] with stackDepth := some 0 }.stack.length ∧
      { launched [] with stack := [4], stackDepth := some 1 }.stackDepth = some 1 ∧
      1 ≤ { launched [] with stack := [4], stackDepth := some 1 }.stack.length := by decide

/-- `add` at 32765, whose third operand word would stand at 32768. -/
def addNearEnd : State := { State.reset with mem := [(32765, 9)], pc := 32765 }

theorem witness_FetchPastEndFaults :
    addNearEnd.hasStep = true ∧ opcodeOf (addNearEnd.mem.read addNearEnd.pc.toNat) = some .add ∧
      32767 < addNearEnd.pc.toNat + Opcode.add.arity := by decide

theorem witness_FaultsArePrecise :
    step addNearEnd = .next (stepped addNearEnd) ∧ (stepped addNearEnd).fault ≠ none ∧
      step (launched [18]) = .next (stepped (launched [18])) ∧ (stepped (launched [18])).fault ≠ none :=
  ⟨rfl, by decide, rfl, by decide⟩

theorem witness_FaultCausesByInstruction :
    (launched []).fault = none ∧ exec .ret (launched []) = .next (ran .ret (launched [])) ∧
      (ran .ret (launched [])).fault = record .stackUnderflow 18 0 ∧
      (ran (.mod (.register 0) (.literal 7) (.literal 0)) (launched [])).fault = record .divideOrModByZero 11 0 ∧
      (ran (.jmp (.invalid 32776)) (launched [])).fault = record .invalidOperand 6 0 ∧
      (ran (.readMem (.register 0) (.literal 0)) (launched [32768])).fault = record .registerRangeViolation 16 0 ∧
      (ran (.input (.register 0)) (launched [])).fault = record .inputUnavailable 20 0 ∧
      (ran (.call (.literal 0)) { launched [] with stackDepth := some 0 }).fault = record .stackOverflow 17 0 :=
  ⟨rfl, rfl, by decide, by decide, by decide, by decide, by decide, by decide⟩

theorem witness_StepRunsDecodedInstruction :
    (launched [19, 65]).hasStep = true ∧ (launched [19, 65]).fetch = .ok (.out (.literal 65), [0, 0]) ∧
      (Instr.out (.literal 65)).wellFormed = true ∧ CellsAt (launched [19, 65]) (.out (.literal 65)) ∧
      CellsAt { launched [] with pc := 32767 } .halt := by
  unfold CellsAt; decide

theorem witness_StepsExactlyWhileRunning :
    (launched []).run = .running ∧ (launched []).fault = none ∧ (launched []).pc.toNat < 32768 ∧
      (stepped (launched [18])).fault = record .stackUnderflow 18 0 ∧ (stepped (launched [])).run = .halted ∧
      (stepped (launched [])).fault = none ∧ { launched [] with pc := 32768 }.pc = 32768 := by decide

theorem witness_UnknownOpcodeSkips :
    (launched [22]).hasStep = true ∧ 22 ≤ ((launched [22]).mem.read (launched [22]).pc.toNat).toNat ∧
      22 ≤ ((launched [65535]).mem.read (launched [65535]).pc.toNat).toNat := by decide

theorem witness_GenericAdvanceOrTransfer :
    (launched []).fault = none ∧
      exec (.jmp (.literal 32767)) (launched []) = .next (ran (.jmp (.literal 32767)) (launched [])) ∧
      (ran (.jmp (.literal 32767)) (launched [])).fault = none ∧
      TransfersTo (launched []) (.jmp (.literal 32767)) 32767 ∧
      exec .noop (launched []) = .next (ran .noop (launched [])) ∧ (ran .noop (launched [])).fault = none ∧
      ∀ target, ¬ TransfersTo (launched []) .noop target :=
  ⟨rfl, rfl, by decide, ⟨32767, by decide⟩, rfl, by decide, fun _ h => h⟩

theorem witness_OnlyHaltHalts :
    step (launched []) = .next (stepped (launched [])) ∧ (stepped (launched [])).run = .halted ∧
      step (launched [21]) = .next (stepped (launched [21])) ∧ (stepped (launched [21])).run = .running ∧
      exec .noop (launched []) = .next (ran .noop (launched [])) := ⟨rfl, by decide, rfl, by decide, rfl⟩

theorem witness_OnlyWritersChangeRegisters :
    step (launched [1, 32775, 9]) = .next (stepped (launched [1, 32775, 9])) ∧
      (stepped (launched [1, 32775, 9])).readReg 7 ≠ (launched [1, 32775, 9]).readReg 7 := ⟨rfl, by decide⟩

theorem witness_OnlyStackInstructionsChangeStack :
    step (launched [2, 7]) = .next (stepped (launched [2, 7])) ∧
      (stepped (launched [2, 7])).stack ≠ (launched [2, 7]).stack ∧
      step { launched [18] with stack := [7] } = .next (stepped { launched [18] with stack := [7] }) ∧
      (stepped { launched [18] with stack := [7] }).stack ≠ [7] := ⟨rfl, by decide, rfl, by decide⟩

theorem witness_StreamsChangeOnlyByTheirInstruction :
    step (launched [19, 65]) = .next (stepped (launched [19, 65])) ∧ (stepped (launched [19, 65])).out ≠ [] ∧
      step (launched [22]) = .next (stepped (launched [22])) ∧ (stepped (launched [22])).diag ≠ [] ∧
      step (launched [20, 32768] (some [1])) = .next (stepped (launched [20, 32768] (some [1]))) ∧
      (stepped (launched [20, 32768] (some [1]))).inp ≠ some [1] :=
  ⟨rfl, by decide, rfl, by decide, rfl, by decide⟩

theorem witness_OutputNeverReadBack : step (launched [19, 65]) = .next (stepped (launched [19, 65])) := rfl

/-- A state that meets the invariant: a register at 32767, a return address 32768 on a stack that is full. -/
def fullState : State :=
  { (launched [15, 1, 5]).setReg 7 32767 with stack := [32768], stackDepth := some 1 }

theorem witness_StepKeepsInvariant : Inv fullState ∧ step fullState = .next (stepped fullState) := by
  refine ⟨⟨?_, ?_, ?_, ?_, ?_⟩, rfl⟩
  · unfold RegsAreWords; decide
  · unfold PcInRange; decide
  · intro v hv
    rw [show fullState.stack = [32768] from rfl, List.mem_singleton] at hv
    rw [hv]; decide
  · intro depth h
    rw [show fullState.stackDepth = some 1 from rfl] at h
    rw [← Option.some.inj h]; decide
  · unfold MemoryCanonical; decide

theorem witness_LaunchMeetsInvariant : launch [65535, 0, 7] (some [1]) (some 0) =
    .loaded { State.resetWith (some [1]) (some 0) with mem := [(0, 65535), (2, 7)] } := by decide

theorem witness_RegistersAlwaysHoldWords :
    launch [65535] none none = .loaded (launched [65535]) ∧
    (∀ k : Reg, (fullState.readReg k).getLsbD 15 = false) ∧ step fullState = .next (stepped fullState) :=
  ⟨rfl, by decide, rfl⟩

theorem witness_LoadPlacesImage :
    ([19, 65] : List Cell).length ≤ 32768 ∧ ([] : List Cell).length ≤ 32768 ∧
      (List.replicate 32768 (1 : Cell)).length ≤ 32768 :=
  ⟨by decide, by decide, Nat.le_of_eq List.length_replicate⟩

theorem witness_ImageFormatAndRejection :
    ([0x34, 0x12] : List Byte).length % 2 = 0 ∧ ([] : List Byte).length % 2 = 0 ∧
      ([1] : List Byte).length % 2 = 1 ∧ 32768 < (List.replicate 32769 (1 : Cell)).length :=
  ⟨by decide, by decide, by decide, by rw [List.length_replicate]; decide⟩

theorem witness_RunEndsOnlyWithoutStep :
    PcInRange (launched [21]) ∧ PcInRange { launched [] with pc := 32768 } ∧
      runFor 5 (launched []) = .ended .halted (stepped (launched [])) ∧
      runFor 1 (launched [21]) = .notFinished (stepped (launched [21])) := by
  unfold PcInRange; decide

theorem witness_SetPushPopCopies :
    HasStackRoom (launched []) ∧ HasStackRoom { launched [] with stackDepth := some 1 } :=
  ⟨.inl rfl, .inr ⟨1, rfl, by decide⟩⟩

theorem witness_CallThenRetReturns :
    (launched []).getOperand (.literal 32767) = .ok 32767 ∧ HasStackRoom (launched []) := ⟨by decide, .inl rfl⟩

theorem witness_StoreSeenByNextFetch :
    (launched [15, 3, 21]).hasStep = true ∧
      (launched [15, 3, 21]).fetch = .ok (.writeMem (.literal 3) (.literal 21), [0]) ∧
      (launched [15, 3, 21]).getOperand (.literal 3) = .ok 3 ∧
      (3 : Word).toNat = (launched [15, 3, 21]).pc.toNat + 3 ∧
      (launched [15, 3, 21]).getOperand (.literal 21) = .ok 21 ∧
      (launched [15, 3, 32767]).hasStep = true ∧
      (launched [15, 3, 32767]).fetch = .ok (.writeMem (.literal 3) (.literal 32767), [0]) ∧
      (launched [15, 3, 32767]).getOperand (.literal 32767) = .ok 32767 := by decide

theorem witness_RegisterWritersFrame :
    exec (.readMem (.register 7) (.literal 0)) (launched [9]) =
        .next (ran (.readMem (.register 7) (.literal 0)) (launched [9])) ∧
      (ran (.readMem (.register 7) (.literal 0)) (launched [9])).readReg 7 = 9 ∧
      exec (.set (.literal 5) (.literal 0)) (launched []) = .next (ran (.set (.literal 5) (.literal 0)) (launched [])) :=
  ⟨rfl, by decide, rfl⟩

theorem witness_PushCallFrame :
    exec (.push (.literal 7)) (launched []) = .next (ran (.push (.literal 7)) (launched [])) ∧
      exec (.call (.literal 7)) (launched []) = .next (ran (.call (.literal 7)) (launched [])) := ⟨rfl, rfl⟩

theorem witness_PopRetFrame :
    exec (.pop (.register 7)) { launched [] with stack := [9] } =
        .next (ran (.pop (.register 7)) { launched [] with stack := [9] }) ∧
      exec .ret { launched [] with stack := [9] } = .next (ran .ret { launched [] with stack := [9] }) := ⟨rfl, rfl⟩

theorem witness_JumpFrame :
    exec (.jmp (.literal 9)) (launched []) = .next (ran (.jmp (.literal 9)) (launched [])) ∧
      exec (.jt (.literal 1) (.literal 9)) (launched []) = .next (ran (.jt (.literal 1) (.literal 9)) (launched [])) ∧
      exec (.jf (.literal 1) (.literal 9)) (launched []) = .next (ran (.jf (.literal 1) (.literal 9)) (launched [])) :=
  ⟨rfl, rfl, rfl⟩

theorem witness_WriteMemFrame :
    exec (.writeMem (.literal 32767) (.literal 5)) (launched []) =
        .next (ran (.writeMem (.literal 32767) (.literal 5)) (launched [])) ∧
      (launched []).getOperand (.literal 32767) = .ok 32767 ∧ (0 : Word) ≠ 32767 ∧
      exec (.writeMem (.invalid 40000) (.literal 5)) (launched []) =
        .next (ran (.writeMem (.invalid 40000) (.literal 5)) (launched [])) ∧
      (launched []).getOperand (.invalid 40000) = .error .invalidOperand :=
  ⟨rfl, by decide, by decide, rfl, by decide⟩

theorem witness_SystemFrame :
    exec .halt (launched []) = .next (ran .halt (launched [])) ∧
      exec (.out (.literal 65)) (launched []) = .next (ran (.out (.literal 65)) (launched [])) ∧
      exec (.input (.register 0)) (launched [] (some [1])) =
        .next (ran (.input (.register 0)) (launched [] (some [1]))) ∧
      exec .noop (launched []) = .next (ran .noop (launched [])) := ⟨rfl, rfl, rfl, rfl⟩

end Sys2Proof.Tests
end

section
/-! SUPPORT. The state family (10_state.md): the register file always holds Words (R22), and the run state becomes
HALTED by `halt` alone and is read by no instruction (R34). -/

namespace Sys2Proof.Machine

/-! ## A step that runs no instruction (40_dispatch.md R111, R116) -/

@[simp] theorem State.skipUnknown_regs (s : State) (op : Cell) : (s.skipUnknown op).regs = s.regs := rfl
@[simp] theorem State.skipUnknown_run (s : State) (op : Cell) : (s.skipUnknown op).run = s.run := rfl

@[simp] theorem State.fetchOffEnd_regs (s : State) (o : Opcode) : (s.fetchOffEnd o).regs = s.regs := rfl
@[simp] theorem State.fetchOffEnd_run (s : State) (o : Opcode) : (s.fetchOffEnd o).run = s.run := rfl

/-! ## Registers hold Words (R22) -/

/-- The two spellings of "a cell holds a Word" (00_scope.md R8): bit 15 is 0, and the number is at most 32767. -/
theorem bit15_eq_false_iff {c : Cell} : c.getLsbD 15 = false ↔ c.toNat ≤ 32767 := by
  have h : c.getLsbD 15 = decide (2 ^ 15 ≤ c.toNat) := BitVec.msb_eq_decide c
  rw [h, decide_eq_false_iff_not]
  omega

/-- The invariant as R22 words it. -/
theorem regsAreWords_iff_bit15 {s : State} : RegsAreWords s ↔ ∀ k : Reg, (s.readReg k).getLsbD 15 = false := by
  simp only [RegsAreWords, bit15_eq_false_iff]

theorem RegsAreWords.bit15_and_le {s : State} (h : RegsAreWords s) (k : Reg) :
    (s.readReg k).getLsbD 15 = false ∧ (s.readReg k).toNat ≤ 32767 :=
  ⟨regsAreWords_iff_bit15.1 h k, h k⟩

/-- The invariant speaks of the register file alone. -/
theorem RegsAreWords.congr {s t : State} (h : RegsAreWords s) (ht : t.regs = s.regs) : RegsAreWords t := fun k => by
  rw [readReg_congr ht]
  exact h k

theorem RegsAreWords.setReg {s : State} (h : RegsAreWords s) (j : Reg) {v : Cell} (hv : v.toNat ≤ 32767) :
    RegsAreWords (s.setReg j v) := fun k => by
  rw [readReg_setReg]
  split
  · exact hv
  · exact h k

theorem regsAreWords_resetWith (input : Option (List Word)) (depth : Option Nat) :
    RegsAreWords (State.resetWith input depth) := fun k => by
  simp [State.readReg, State.resetWith]

/-- The load port stores in memory only (20_memory.md R55). -/
theorem launch_regs {image : List Cell} {input : Option (List Word)} {depth : Option Nat} {s : State}
    (h : launch image input depth = .loaded s) : s.regs = (State.resetWith input depth).regs := by
  unfold launch State.load at h
  split at h
  · rw [← LoadResult.loaded.inj h]
  · cases h

/-- Only three effects write a register, and each writes a Word. -/
theorem exec_keeps_regsAreWords {i : Instr} {s t : State} (hs : RegsAreWords s) (h : exec i s = .next t) :
    RegsAreWords t := by
  cases exec_effect h with
  | writesReg k v _ _ hv => exact (hs.setReg k hv).congr rfl
  | pops k _ v _ _ hv => exact (hs.setReg k hv).congr rfl
  | takes k c => exact (hs.setReg k (ofNat_toNat_le c)).congr rfl
  | _ => exact hs.congr rfl

theorem step_keeps_regsAreWords {s t : State} (hs : RegsAreWords s) (h : step s = .next t) : RegsAreWords t := by
  cases (step_next h).2 with
  | runs i _ _ he => exact exec_keeps_regsAreWords hs (exec_next_iff.2 he)
  | skips _ _ ht => exact hs.congr (by simp [ht])
  | offEnd _ _ _ _ ht => exact hs.congr (by simp [ht])

/-- Settles O47: `RegsAreWords` holds after reset, the load leaves the registers alone, and every step keeps it. -/
theorem registersAlwaysHoldWords : Obligations.RegistersAlwaysHoldWords := by
  unfold Obligations.RegistersAlwaysHoldWords
  refine ⟨fun input depth => ?_, fun image input depth s h => ?_, fun s t hs h => ?_⟩
  · exact (regsAreWords_resetWith input depth).bit15_and_le
  · exact ((regsAreWords_resetWith input depth).congr (launch_regs h)).bit15_and_le
  · exact (step_keeps_regsAreWords (regsAreWords_iff_bit15.2 hs) h).bit15_and_le

/-! ## The run state (R34) -/

/-- `halt` (46_system_io.md R200). -/
theorem exec_halt (s : State) : exec .halt s = .next { s with run := .halted, pc := nextPc .halt s } := rfl

theorem exec_keeps_run {i : Instr} {s t : State} (hi : i ≠ .halt) (h : exec i s = .next t) : t.run = s.run := by
  cases exec_effect h with
  | halts hh => exact absurd hh hi
  | _ => rfl

theorem exec_keeps_out {i : Instr} {s t : State} (hi : i.opcode ≠ .out) (h : exec i s = .next t) : t.out = s.out := by
  cases exec_effect h with
  | emits _ _ ho => exact absurd (congrArg Instr.opcode ho) hi
  | _ => rfl

theorem exec_keeps_diag {i : Instr} {s t : State} (h : exec i s = .next t) : t.diag = s.diag := by
  cases exec_effect h with
  | _ => rfl

/-- A step ends HALTED exactly when it ran `halt`: it started RUNNING, and nothing else writes the run state. -/
theorem step_run_halted_iff {s t : State} (h : step s = .next t) :
    t.run = .halted ↔ ∃ rest, s.fetch = .ok (.halt, rest) := by
  obtain ⟨hs, hends⟩ := step_next h
  have hrun : s.run ≠ .halted := by simp [(hasStep_iff.1 hs).1]
  cases hends with
  | runs i rest hf he =>
    have hx := exec_next_iff.2 he
    by_cases hi : i = .halt
    · subst hi
      rw [exec_halt] at hx
      simp [hf, ← Host.Outcome.next.inj hx]
    · simp [hf, hi, exec_keeps_run hi hx, hrun]
  | skips hf _ ht => simp [hf, ht, hrun]
  | offEnd o hf _ _ ht => simp [hf, ht, hrun]

/-- HALTED is terminal. -/
theorem step_ne_next_of_halted {s : State} (h : s.run = .halted) (t : State) : step s ≠ .next t := fun ht => by
  have := (hasStep_iff.1 (step_next ht).1).1
  rw [h] at this
  cases this

/-- `out` does the same whatever the run state is: it resolves its operand, and appends to the output it finds. -/
theorem exec_out_withRun {src : Operand} {s t : State} (h : exec (.out src) s = .next t) (r : RunState) :
    exec (.out src) { s with run := r } = .next { t with run := r } := by
  rcases exec_next_iff.1 h with ⟨u, hu, rfl⟩ | ⟨u, g, hu, -⟩ | ⟨c, hc, rfl⟩
  · obtain ⟨v, hv, he⟩ := outHandler_ok_iff.1 hu
    obtain rfl := HandlerEnd.advance.inj he
    exact exec_advance (i := .out src) (s := { s with run := r }) (outHandler_ok_iff.2 ⟨v, hv, rfl⟩)
  · obtain ⟨v, -, he⟩ := outHandler_ok_iff.1 hu
    cases he
  · exact exec_raise (outHandler_error_iff.2 (outHandler_error_iff.1 hc))

/-- `exec_relabel` with the output and the diagnostics that the instruction keeps: only the run state differs. -/
theorem exec_withRun_of_opcode {i : Instr} {s t : State} (hh : i.opcode ≠ .halt) (ho : i.opcode ≠ .out)
    (h : exec i s = .next t) (r : RunState) : exec i { s with run := r } = .next { t with run := r } := by
  have hs : s.relabel r t.out t.diag = { s with run := r } := by
    rw [exec_keeps_out ho h, exec_keeps_diag h, State.relabel]
  rw [← hs]
  exact exec_relabel hh ho h r t.out t.diag

/-- No instruction reads the run state, and all but `halt` carry it over. -/
theorem exec_withRun {i : Instr} {s t : State} (hi : i ≠ .halt) (h : exec i s = .next t) (r : RunState) :
    exec i { s with run := r } = .next { t with run := r } := by
  cases i with
  | halt => exact absurd rfl hi
  | out src => exact exec_out_withRun h r
  | _ => exact exec_withRun_of_opcode (by simp [Instr.opcode]) (by simp [Instr.opcode]) h r

/-- Settles O39: `halt` alone writes the run state, and the run state is read only to decide whether there is a step. -/
theorem onlyHaltHalts : Obligations.OnlyHaltHalts := by
  unfold Obligations.OnlyHaltHalts
  refine ⟨fun _ _ => rfl, fun s t => step_run_halted_iff, fun s => step_ne_next_of_halted, fun s t i r h => ?_⟩
  by_cases hi : i = .halt
  · subst hi
    rw [exec_halt] at h ⊢
    rw [← Host.Outcome.next.inj h]
    rfl
  · rw [if_neg hi]
    exact exec_withRun hi h r

end Sys2Proof.Machine
end

section
/-! SUPPORT. The memory family (20_memory.md): at run time `write-mem` alone changes memory (R53), and the load puts the
image in the cells from 0 up and nothing anywhere else (R55). -/

namespace Sys2Proof.Machine

/-! ## Memory at run time (R53) -/

@[simp] theorem State.skipUnknown_mem (s : State) (op : Cell) : (s.skipUnknown op).mem = s.mem := rfl

@[simp] theorem State.fetchOffEnd_mem (s : State) (o : Opcode) : (s.fetchOffEnd o).mem = s.mem := rfl

/-- Of the effects of an instruction one alone touches memory, the store of `write-mem`. -/
theorem exec_mem {i : Instr} {s t : State} (h : exec i s = .next t) : t.mem = s.mem ∨
    ∃ addr src a v, i = .writeMem addr src ∧ s.getOperand addr = .ok a ∧ s.getOperand src = .ok v ∧
      t.mem = (s.memWrite a (cellOfWord v)).mem := by
  cases exec_effect h with
  | stores addr src a v hi ha hv => exact .inr ⟨addr, src, a, v, hi, ha, hv, rfl⟩
  | _ => exact .inl rfl

/-- A step that runs no instruction keeps memory, so a step changes it only as the fetched `write-mem` does. -/
theorem step_mem {s t : State} (h : step s = .next t) : t.mem = s.mem ∨
    ∃ addr src rest a v, s.fetch = .ok (.writeMem addr src, rest) ∧ s.getOperand addr = .ok a ∧
      s.getOperand src = .ok v ∧ t.mem = (s.memWrite a (cellOfWord v)).mem := by
  cases (step_next h).2 with
  | runs i rest hf he =>
    obtain hkeep | ⟨addr, src, a, v, rfl, ha, hv, ht⟩ := exec_mem (exec_next_iff.2 he)
    · exact .inl hkeep
    · exact .inr ⟨addr, src, rest, a, v, hf, ha, hv, ht⟩
  | skips _ _ ht => exact .inl (by simp [ht])
  | offEnd _ _ _ _ ht => exact .inl (by simp [ht])

/-- Settles O8: `memWrite` is one cell's write, and the only step with the effect of one is a `write-mem`. -/
theorem memWriteSetsOneCell : Obligations.MemWriteSetsOneCell := by
  unfold Obligations.MemWriteSetsOneCell
  refine ⟨fun s a v => ⟨fun b => s.memRead_memWrite a b v, rfl⟩, fun s t h => ?_⟩
  simpa only [cellOfWord_eq] using step_mem h

/-! ## The load (R55) -/

/-- An image that fits is accepted, and only memory differs from reset. -/
theorem launch_of_fits {image : List Cell} (hfit : image.length ≤ 32768) (input : Option (List Word))
    (depth : Option Nat) : launch image input depth =
      .loaded { State.resetWith input depth with mem := Memory.load [] 0 image } := by
  rw [launch, State.load, if_pos hfit]
  rfl

/-- What an image loaded into empty memory from cell 0 reads as: its own words, then 0. -/
theorem Memory.read_load_empty {image : List Cell} (hfit : image.length ≤ 32768) (k : Nat) :
    (Memory.load [] 0 image).read k = if h : k < image.length then image[k] else 0 := by
  rw [Memory.read_load [] (by simpa using hfit) k]
  simp [Memory.read, Memory.unlisted]

/-- Settles O49: the launch state is the reset state with the image loaded, read back cell by cell. -/
theorem loadPlacesImage : Obligations.LoadPlacesImage := by
  unfold Obligations.LoadPlacesImage
  intro image input depth hfit
  refine ⟨_, launch_of_fits hfit input depth, fun k hk => ?_, fun k hk _ => ?_, rfl⟩
  · rw [Memory.read_load_empty hfit, dif_pos hk]
  · rw [Memory.read_load_empty hfit, dif_neg (by omega)]

end Sys2Proof.Machine
end

section
/-! SUPPORT. The encoding family (30_encoding.md): an instruction decodes from its own cells, and so do the examples of
R97. -/

namespace Sys2Proof

/-- A well-formed instruction is read from the head of any cells that begin with its encoding (R80, R86). -/
theorem decode_encode {i : Instr} (h : i.wellFormed = true) (rest : List Cell) :
    decode (encode i ++ rest) = .ok (i, rest) :=
  decode_ok_iff.2 ⟨_, _, rfl, i.opcode, opcodeOf_opcodeCell _, withOperands_encode i h rest⟩

/-- The cells of a well-formed instruction, with nothing after them, decode to it. -/
theorem decode_of_encode_eq {i : Instr} {cells : List Cell} (h : i.wellFormed = true) (he : encode i = cells) :
    decode cells = .ok (i, []) := by
  have hd := decode_encode h []
  rwa [List.append_nil, he] at hd

/-- Settles O3: the three encodings are computed from the table, and the round trip decodes them. -/
theorem encodingExamples : Obligations.EncodingExamples := by
  unfold Obligations.EncodingExamples
  have hout : encode (.out (.literal 65)) = [19, 65] := rfl
  have hhalt : encode .halt = [0] := rfl
  have hadd : encode (.add (.register 0) (.literal 10) (.literal 5)) = [9, 32768, 10, 5] := rfl
  exact ⟨hout, hhalt, hadd, decode_of_encode_eq rfl hout, decode_of_encode_eq rfl hhalt,
    decode_of_encode_eq rfl hadd⟩

end Sys2Proof
end

section
/-! SUPPORT. The dispatch family (40_dispatch.md): what an operand word resolves to, class by class (R114). -/

namespace Sys2Proof.Machine

theorem getOperand_literalWord (s : State) {w : Cell} (h : w.toNat ≤ 32767) :
    s.getOperand (operandOf w) = .ok (wordOfCell w) := by
  rw [operandOf_literal h, State.getOperand]

theorem getOperand_registerWord (s : State) {w : Cell} {k : Reg} (h : w.toNat = 32768 + k.val) :
    s.getOperand (operandOf w) = .ok (wordOfCell (s.readReg k)) := by
  rw [operandOf_register h, State.getOperand]

theorem getOperand_invalidWord (s : State) {w : Cell} (h : 32776 ≤ w.toNat) :
    s.getOperand (operandOf w) = .error .invalidOperand := by
  rw [operandOf_invalid h, State.getOperand]

/-- Settles O7: by the class of the word; the low 15 bits are the whole number, of a literal by its range and of a
register by the invariant of R22. -/
theorem getResolvesOperands : Obligations.GetResolvesOperands := by
  unfold Obligations.GetResolvesOperands
  intro s w hs
  refine ⟨fun hw => ?_, fun k hw => ?_, getOperand_invalidWord s, fun t ht => getOperand_congr ht _⟩
  · exact ⟨_, getOperand_literalWord s hw, wordOfCell_toNat hw⟩
  · exact ⟨_, getOperand_registerWord s hw, wordOfCell_toNat (hs k)⟩

end Sys2Proof.Machine
end

section
/-! SUPPORT. The arithmetic and logic family (44_alu.md): the results of the sub-block as numbers and bits (R176). -/

namespace Sys2Proof.Machine

/-- A remainder needs no reduction, for any divisor: it is at most the dividend. -/
theorem reduce_mod_toNat (b c : Word) : (reduce (b.toNat % c.toNat)).toNat = b.toNat % c.toNat := by
  have hle : b.toNat % c.toNat ≤ b.toNat := Nat.mod_le _ _
  rw [reduce_toNat, Nat.mod_eq_of_lt (by omega)]

theorem alu_mod_of_ne_zero (b : Word) {c : Word} (hc : c ≠ 0) :
    alu .mod b c = some (reduce (b.toNat % c.toNat)) := if_neg hc

/-- `0x7FFF` has all 15 bits set, so the exclusive or with it is the complement. -/
theorem xor_allBits_toNat (b : Word) : (b ^^^ 0x7FFF).toNat = 32767 - b.toNat := by
  have hones : (0x7FFF : Word) = BitVec.allOnes 15 := rfl
  rw [hones, BitVec.xor_allOnes, BitVec.toNat_not]

theorem alu_eq_toNat (b c : Word) : alu .eq b c = some (if b.toNat = c.toNat then 1 else 0) := by
  simp only [alu, truthWord, decide_eq_true_eq, BitVec.toNat_inj]

theorem alu_gt_toNat (b c : Word) : alu .gt b c = some (if b.toNat > c.toNat then 1 else 0) := by
  simp only [alu, truthWord, decide_eq_true_eq, gt_iff_lt]

/-- Settles O10: operation by operation, by what `reduce`, the bit operations and the truth value give. -/
theorem aluExactResults : Obligations.AluExactResults := by
  unfold Obligations.AluExactResults
  intro b c
  refine ⟨⟨_, rfl, reduce_toNat _⟩, ⟨_, rfl, reduce_toNat _⟩, fun hc => ?_, ?_, ⟨_, rfl, fun i => ?_⟩,
    ⟨_, rfl, fun i => ?_⟩, ⟨_, rfl, xor_allBits_toNat b⟩, alu_eq_toNat b c, alu_gt_toNat b c⟩
  · exact ⟨_, alu_mod_of_ne_zero b hc, reduce_mod_toNat b c⟩
  · exact aluResult_error_iff.2 ⟨⟨rfl, rfl⟩, rfl⟩
  · exact BitVec.getLsbD_and
  · exact BitVec.getLsbD_or

end Sys2Proof.Machine
end

section
/-! SUPPORT. The system family (46_system_io.md): an instruction that is one cell is run wherever its opcode word
stands, and `noop` only advances (R203). -/

namespace Sys2Proof.Machine

/-- An instruction without operands is its opcode word alone (30_encoding.md R86), so it is never cut off by the end of
memory. -/
theorem cellsAt_of_opcodeCell {s : State} {i : Instr} (hi : i.operands = []) (hpc : s.pc.toNat < 32768)
    (hop : s.mem.read s.pc.toNat = opcodeCell i.opcode) : CellsAt s i := by
  have he : encode i = [opcodeCell i.opcode] := by rw [encode, hi, List.map_nil]
  simp only [CellsAt, he, List.length_singleton]
  refine ⟨hpc, fun j hj => ?_⟩
  obtain rfl : j = 0 := Nat.lt_one_iff.1 hj
  exact hop

theorem step_of_opcodeCell {s : State} {i : Instr} (hi : i.operands = []) (hs : s.hasStep = true)
    (hop : s.mem.read s.pc.toNat = opcodeCell i.opcode) : step s = exec i s := by
  have hw : i.wellFormed = true := by rw [Instr.wellFormed, hi, List.all_nil]
  obtain ⟨_, hf⟩ := fetch_of_cellsAt hw (cellsAt_of_opcodeCell hi (hasStep_iff.1 hs).2.2 hop)
  exact step_runs hs hf

/-- `noop` (R203): its handler leaves the fetched state as it is, and with no operand that is the state before. -/
theorem exec_noop (s : State) : exec .noop s = .next { s with pc := s.pc + 1 } := by
  have hpc : (fetchedState .noop s).pc = s.pc := BitVec.add_zero s.pc
  have hadv : handlerOf .noop (fetchedState .noop s) = .ok (.advance (fetchedState .noop s)) := noopHandler_ok_iff.2 rfl
  rw [exec_advance hadv, hpc, fetchedState]

/-- Settles O23: a step at a cell 21 runs `noop`, and `noop` only advances the pc. -/
theorem noopOnlyAdvances : Obligations.NoopOnlyAdvances := by
  unfold Obligations.NoopOnlyAdvances
  refine ⟨rfl, fun s => ⟨exec_noop s, fun hs hop => ?_⟩⟩
  rw [step_of_opcodeCell (i := .noop) rfl hs hop, exec_noop]

end Sys2Proof.Machine
end

section
/-! SUPPORT. The encoding, from both sides (30_encoding.md): instructions to cells and back, the opcode table, the
opcode words that are unknown, and the classes of an operand word. -/

namespace Sys2Proof

/-- Settles O1: `decode_encode`, for any cells after the instruction. -/
theorem decodeOfEncode : Obligations.DecodeOfEncode := by
  unfold Obligations.DecodeOfEncode
  intro i rest hw
  exact decode_encode hw rest

/-- Every operand read from cells is well formed, so an instruction of such operands is (R82, R88). -/
theorem wellFormed_of_operands {i : Instr} {ws : List Cell} (h : i.operands = ws.map operandOf) :
    i.wellFormed = true := by
  rw [Instr.wellFormed, h, List.all_map, List.all_eq_true]
  intro w _
  exact operandOf_wellFormed w

/-- The cells of the operands that were read are the words they were read from. -/
theorem map_operandCell_of_operands {i : Instr} {ws : List Cell} (h : i.operands = ws.map operandOf) :
    i.operands.map operandCell = ws := by
  have hid : operandCell ∘ operandOf = id := funext operandCell_operandOf
  rw [h, List.map_map, hid, List.map_id]

/-- Settles O2: the opcode word is the opcode's own number, and each operand word is the word of its operand. -/
theorem encodeOfDecode : Obligations.EncodeOfDecode := by
  unfold Obligations.EncodeOfDecode
  intro cells i rest h
  obtain ⟨op, tail, rfl, o, ho, hread⟩ := decode_ok_iff.1 h
  obtain ⟨rfl, ws, -, rfl, hops⟩ := withOperands_some hread
  refine ⟨wellFormed_of_operands hops, ?_⟩
  rw [encode, map_operandCell_of_operands hops, opcodeCell_of_opcodeOf ho, List.cons_append]

/-- Settles O5: the decoder names an unknown opcode exactly when the table has none for the word. -/
theorem unknownOpcodesRefused : Obligations.UnknownOpcodesRefused := by
  unfold Obligations.UnknownOpcodesRefused
  intro op rest
  rw [← opcodeOf_eq_none]
  constructor
  · intro h
    obtain ⟨-, hn⟩ | ⟨o, he, -⟩ := decode_error h
    · exact hn
    · cases he
  · intro hn
    rw [decode, hn]

/-- Settles O6: class by class. -/
theorem operandWordClasses : Obligations.OperandWordClasses := by
  unfold Obligations.OperandWordClasses
  intro w
  refine ⟨fun hw => ?_, fun k hw => ?_, fun hw => ?_⟩
  · rw [operandOf_literal hw]
    exact ⟨⟨_, rfl, wordOfCell_toNat hw⟩, rfl⟩
  · rw [operandOf_register hw]
    exact ⟨rfl, rfl⟩
  · rw [operandOf_invalid hw]
    exact ⟨rfl, rfl⟩

/-- A row of the opcode table (R86): the opcode's number, then what its format reads. -/
theorem decode_opcodeCell {o : Opcode} {cells : List Cell} {r : Instr × List Cell}
    (h : withOperands o cells = some r) : decode (opcodeCell o :: cells) = .ok r :=
  decode_ok_iff.2 ⟨_, _, rfl, o, opcodeOf_opcodeCell o, h⟩

/-- Settles O4: row by row, the number from `opcodeCell` and the operands from `withOperands`. -/
theorem opcodeTableDecodes : Obligations.OpcodeTableDecodes := by
  unfold Obligations.OpcodeTableDecodes
  intro w1 w2 w3 rest
  exact ⟨decode_opcodeCell (o := .halt) rfl, decode_opcodeCell (o := .set) rfl, decode_opcodeCell (o := .push) rfl,
    decode_opcodeCell (o := .pop) rfl, decode_opcodeCell (o := .eq) rfl, decode_opcodeCell (o := .gt) rfl,
    decode_opcodeCell (o := .jmp) rfl, decode_opcodeCell (o := .jt) rfl, decode_opcodeCell (o := .jf) rfl,
    decode_opcodeCell (o := .add) rfl, decode_opcodeCell (o := .mult) rfl, decode_opcodeCell (o := .mod) rfl,
    decode_opcodeCell (o := .and) rfl, decode_opcodeCell (o := .or) rfl, decode_opcodeCell (o := .not) rfl,
    decode_opcodeCell (o := .writeMem) rfl, decode_opcodeCell (o := .readMem) rfl,
    decode_opcodeCell (o := .call) rfl, decode_opcodeCell (o := .ret) rfl, decode_opcodeCell (o := .out) rfl,
    decode_opcodeCell (o := .input) rfl, decode_opcodeCell (o := .noop) rfl⟩

end Sys2Proof
end

section
/-! SUPPORT. What an instruction can do to each piece of state: one lemma per piece, read off `Effect`. The frames and
the invariant are assembled from these. -/

namespace Sys2Proof.Machine

/-! ## A step that runs no instruction, and a fault: the remaining fields -/

@[simp] theorem State.skipUnknown_stack (s : State) (op : Cell) : (s.skipUnknown op).stack = s.stack := rfl
@[simp] theorem State.skipUnknown_pc (s : State) (op : Cell) : (s.skipUnknown op).pc = s.pc + 1 := rfl
@[simp] theorem State.skipUnknown_fault (s : State) (op : Cell) : (s.skipUnknown op).fault = s.fault := rfl
@[simp] theorem State.skipUnknown_out (s : State) (op : Cell) : (s.skipUnknown op).out = s.out := rfl
@[simp] theorem State.skipUnknown_diag (s : State) (op : Cell) :
    (s.skipUnknown op).diag = s.diag ++ [{ addr := s.pc, opcode := op }] := rfl
@[simp] theorem State.skipUnknown_inp (s : State) (op : Cell) : (s.skipUnknown op).inp = s.inp := rfl
@[simp] theorem State.skipUnknown_stackDepth (s : State) (op : Cell) :
    (s.skipUnknown op).stackDepth = s.stackDepth := rfl

@[simp] theorem State.fetchOffEnd_stack (s : State) (o : Opcode) : (s.fetchOffEnd o).stack = s.stack := rfl
@[simp] theorem State.fetchOffEnd_pc (s : State) (o : Opcode) : (s.fetchOffEnd o).pc = 32768 := rfl
@[simp] theorem State.fetchOffEnd_out (s : State) (o : Opcode) : (s.fetchOffEnd o).out = s.out := rfl
@[simp] theorem State.fetchOffEnd_diag (s : State) (o : Opcode) : (s.fetchOffEnd o).diag = s.diag := rfl
@[simp] theorem State.fetchOffEnd_inp (s : State) (o : Opcode) : (s.fetchOffEnd o).inp = s.inp := rfl
@[simp] theorem State.fetchOffEnd_stackDepth (s : State) (o : Opcode) :
    (s.fetchOffEnd o).stackDepth = s.stackDepth := rfl

/-! ## Piece by piece -/

section
variable {i : Instr} {s t : State}

/-- The twelve register writers (10_state.md R24). -/
def registerWriters : List Opcode := [.set, .pop, .eq, .gt, .add, .mult, .mod, .and, .or, .not, .readMem, .input]

theorem mem_registerWriters_of_registerOnly {o : Opcode} (h : o ∈ registerOnly) : o ∈ registerWriters := by
  revert o
  decide

/-- A register that is not the one written reads as before. -/
theorem readReg_ne_set {k j : Reg} {v : Cell} (ht : t.regs = s.regs.set j v) (hk : t.readReg k ≠ s.readReg k) :
    k = j := by
  by_contra hkj
  refine hk ?_
  rw [readReg_congr (s := s.setReg j v) ht, readReg_setReg, if_neg hkj]

/-- A register changes only as the destination of one of the writers (R24). -/
theorem exec_changes_reg {k : Reg} (h : exec i s = .next t) (hk : t.readReg k ≠ s.readReg k) :
    i.opcode ∈ registerWriters ∧ i.operands.head? = some (.register k) := by
  cases exec_effect h with
  | writesReg j v hop hd =>
    obtain rfl := readReg_ne_set rfl hk
    exact ⟨mem_registerWriters_of_registerOnly hop, hd⟩
  | pops j below v hi =>
    obtain rfl := readReg_ne_set rfl hk
    subst hi
    exact ⟨by simp [Instr.opcode, registerWriters], rfl⟩
  | takes j c more hi =>
    obtain rfl := readReg_ne_set rfl hk
    subst hi
    exact ⟨by simp [Instr.opcode, registerWriters], rfl⟩
  | _ => exact absurd rfl hk

theorem exec_keepsRegs (h : exec i s = .next t) (hi : i.opcode ∉ registerWriters) : KeepsRegs s t := fun k => by
  by_contra hk
  exact hi (exec_changes_reg h hk).1

theorem exec_keepsRegsBut {dest : Operand} (h : exec i s = .next t) (hd : i.operands.head? = some dest) :
    KeepsRegsBut dest s t := fun k hne => by
  by_contra hk
  have hreg := (exec_changes_reg h hk).2
  rw [hd] at hreg
  exact hne (Option.some.inj hreg)

/-- Memory is changed by `write-mem` only (20_memory.md R53). -/
theorem exec_keepsMemory (h : exec i s = .next t) (hi : i.opcode ≠ .writeMem) : KeepsMemory s t := fun a => by
  obtain hmem | ⟨_, _, _, _, rfl, -⟩ := exec_mem h
  · exact memRead_congr hmem a
  · exact absurd rfl hi

/-- What an instruction can do to the stack (10_state.md R33). A cell that is added is a Word or the address of the
next instruction, and there was room for it. -/
theorem exec_stack (h : exec i s = .next t) :
    t.stack = s.stack ∨
    ((i.opcode = .push ∨ i.opcode = .call) ∧ HasStackRoom s ∧
      ∃ v, t.stack = s.stack ++ [v] ∧ (v.toNat ≤ 32767 ∨ v = nextPc i s)) ∨
    ((i.opcode = .pop ∨ i.opcode = .ret) ∧ ∃ v, s.stack = t.stack ++ [v]) := by
  cases exec_effect h with
  | pushes src v hi _ hr => exact .inr (.inl ⟨.inl (by rw [hi]; rfl), hr, _, rfl, .inl (ofNat_toNat_le v)⟩)
  | calls o v hi _ hr => exact .inr (.inl ⟨.inr (by rw [hi]; rfl), hr, _, rfl, .inr rfl⟩)
  | pops k below v hi hs => exact .inr (.inr ⟨.inl (by rw [hi]; rfl), v, hs⟩)
  | returns below v hi hs => exact .inr (.inr ⟨.inr (by rw [hi]; rfl), v, hs⟩)
  | _ => exact .inl rfl

theorem exec_keeps_stack (h : exec i s = .next t) (hi : i.opcode ∉ [.push, .call, .pop, .ret]) :
    t.stack = s.stack := by
  obtain hkeep | ⟨hop, -⟩ | ⟨hop, -⟩ := exec_stack h
  · exact hkeep
  · rcases hop with hop | hop <;> simp [hop] at hi
  · rcases hop with hop | hop <;> simp [hop] at hi

/-- The output is changed by `out` only, by one code at the end (R39). -/
theorem exec_out_stream (h : exec i s = .next t) :
    t.out = s.out ∨ ∃ src v, i = .out src ∧ t.out = s.out ++ [v] := by
  cases exec_effect h with
  | emits src v hi => exact .inr ⟨src, v, hi, rfl⟩
  | _ => exact .inl rfl

/-- The input is changed by `in` only, by one code at the front (R40). -/
theorem exec_inp (h : exec i s = .next t) :
    t.inp = s.inp ∨ ∃ dest c more, i = .input dest ∧ s.inp = some (c :: more) ∧ t.inp = some more := by
  cases exec_effect h with
  | takes k c more hi hs => exact .inr ⟨_, c, more, hi, hs, rfl⟩
  | _ => exact .inl rfl

theorem exec_keeps_inp (h : exec i s = .next t) (hi : i.opcode ≠ .input) : t.inp = s.inp := by
  obtain hkeep | ⟨_, _, _, rfl, -⟩ := exec_inp h
  · exact hkeep
  · exact absurd rfl hi

theorem exec_keepsStreams (h : exec i s = .next t) (ho : i.opcode ≠ .out) (hi : i.opcode ≠ .input) :
    KeepsStreams s t :=
  ⟨exec_keeps_out ho h, exec_keeps_diag h, exec_keeps_inp h hi⟩

theorem exec_keeps_stackDepth (h : exec i s = .next t) : t.stackDepth = s.stackDepth := by
  cases exec_effect h with
  | _ => rfl

theorem exec_keepsRun (h : exec i s = .next t) (hi : i ≠ .halt) : KeepsRun s t :=
  ⟨exec_keeps_run hi h, exec_keeps_stackDepth h⟩

/-- A fault is recorded by raising it, with the state R229 describes, and in no other way. -/
theorem exec_fault (h : exec i s = .next t) :
    t.fault = s.fault ∨ ∃ c, handlerOf i (fetchedState i s) = .error c ∧ t = faultState i s c := by
  cases exec_effect h with
  | raises c hc => exact .inr ⟨c, hc, rfl⟩
  | _ => exact .inl rfl

theorem exec_faultOnlyOf (h : exec i s = .next t) : FaultOnlyOf i s t := by
  obtain hkeep | ⟨c, -, rfl⟩ := exec_fault h
  · exact .inl hkeep
  · exact .inr ⟨c, rfl⟩

end

/-! ## Where the pc goes -/

/-- The pc after the generic advance, in one sum (40_dispatch.md R113). -/
theorem nextPc_eq (i : Instr) (s : State) : nextPc i s = s.pc + BitVec.ofNat 16 (i.opcode.arity + 1) := by
  rw [nextPc, BitVec.add_assoc, BitVec.ofNat_add]
  rfl

/-- Advancing from inside memory does not wrap. -/
theorem toNat_add_ofNat {a : Cell} {n : Nat} (h : a.toNat + n ≤ 32768) :
    (a + BitVec.ofNat 16 n).toNat = a.toNat + n := by
  simp only [BitVec.toNat_add, BitVec.toNat_ofNat]
  omega

theorem nextPc_toNat_le {i : Instr} {s : State} (h : s.pc.toNat + i.opcode.arity < 32768) :
    (nextPc i s).toNat ≤ 32768 := by
  rw [nextPc_eq, toNat_add_ofNat h]
  exact h

end Sys2Proof.Machine
end

section
/-! SUPPORT. The invariant (10_state.md): each of its parts is kept by every step, and reset and launch meet it. The
part on registers is `step_keeps_regsAreWords`. -/

namespace Sys2Proof.Machine

section
variable {i : Instr} {s t : State}

/-! ## The pc (R26) -/

/-- The pc stays in range: targets are Words, a returned cell is in range by the invariant on the stack, and all the
cells of the instruction were inside memory. -/
theorem exec_pcInRange (h : exec i s = .next t) (hfit : s.pc.toNat + i.opcode.arity < 32768)
    (hstack : StackInRange s) : PcInRange t := by
  cases exec_effect h with
  | raises =>
    have hpc := toNat_add_ofNat (Nat.le_of_lt hfit)
    exact hpc.trans_le (Nat.le_of_lt hfit)
  | jumps target _ _ hv => exact hv.trans (by decide)
  | calls o v => exact (ofNat_toNat_le v).trans (by decide)
  | returns below v _ hs => exact hstack v (by simp [hs])
  | _ => exact nextPc_toNat_le hfit

theorem step_pcInRange (h : step s = .next t) (hstack : StackInRange s) : PcInRange t := by
  obtain ⟨hs, hends⟩ := step_next h
  have hpc := (hasStep_iff.1 hs).2.2
  cases hends with
  | runs i rest hf he => exact exec_pcInRange (exec_next_iff.2 he) (fetch_ok hpc hf).2 hstack
  | skips _ _ ht =>
    have hinc := toNat_add_ofNat (n := 1) hpc
    rw [PcInRange, ht, State.skipUnknown_pc]
    exact hinc.trans_le hpc
  | offEnd o _ _ _ ht =>
    rw [PcInRange, ht, State.fetchOffEnd_pc]
    decide

/-! ## The stack (R31) -/

/-- The cells added are Words or return addresses. -/
theorem exec_stackInRange (h : exec i s = .next t) (hfit : s.pc.toNat + i.opcode.arity < 32768)
    (hstack : StackInRange s) : StackInRange t := by
  obtain hkeep | ⟨-, -, v, hadd, hv⟩ | ⟨-, v, hdrop⟩ := exec_stack h <;> intro w hw
  · exact hstack w (hkeep ▸ hw)
  · rw [hadd, List.mem_append, List.mem_singleton] at hw
    obtain hw | rfl := hw
    · exact hstack w hw
    · obtain hv | rfl := hv
      · exact hv.trans (by decide)
      · exact nextPc_toNat_le hfit
  · exact hstack w (by rw [hdrop]; exact List.mem_append_left _ hw)

theorem HasStackRoom.lt_depth (h : HasStackRoom s) {depth : Nat} (hd : s.stackDepth = some depth) :
    s.stack.length < depth := by
  obtain hnone | ⟨d, hsome, hlt⟩ := h
  · simp [hnone] at hd
  · obtain rfl := Option.some.inj (hsome.symm.trans hd)
    exact hlt

/-- A cell is added only where there is room. -/
theorem exec_stackFits (h : exec i s = .next t) (hfits : StackFits s) : StackFits t := by
  intro depth hd
  rw [exec_keeps_stackDepth h] at hd
  obtain hkeep | ⟨-, hroom, v, hadd, -⟩ | ⟨-, v, hdrop⟩ := exec_stack h
  · rw [hkeep]
    exact hfits depth hd
  · rw [hadd, List.length_append, List.length_singleton]
    exact hroom.lt_depth hd
  · have hle := hfits depth hd
    rw [hdrop, List.length_append] at hle
    omega

/-- A step that runs no instruction keeps the stack and its depth. -/
theorem step_runs_or_keeps_stack (h : step s = .next t) :
    (∃ i rest, s.fetch = .ok (i, rest) ∧ s.pc.toNat + i.opcode.arity < 32768 ∧ exec i s = .next t) ∨
      (t.stack = s.stack ∧ t.stackDepth = s.stackDepth) := by
  obtain ⟨hs, hends⟩ := step_next h
  cases hends with
  | runs i rest hf he => exact .inl ⟨i, rest, hf, (fetch_ok (hasStep_iff.1 hs).2.2 hf).2, exec_next_iff.2 he⟩
  | skips _ _ ht => exact .inr (by simp [ht])
  | offEnd o _ _ _ ht => exact .inr (by simp [ht])

theorem step_stackInRange (h : step s = .next t) (hstack : StackInRange s) : StackInRange t := by
  obtain ⟨i, rest, -, hfit, he⟩ | ⟨hkeep, -⟩ := step_runs_or_keeps_stack h
  · exact exec_stackInRange he hfit hstack
  · rwa [StackInRange, hkeep]

theorem step_stackFits (h : step s = .next t) (hfits : StackFits s) : StackFits t := by
  obtain ⟨i, rest, -, -, he⟩ | ⟨hkeep, hdepth⟩ := step_runs_or_keeps_stack h
  · exact exec_stackFits he hfits
  · rwa [StackFits, hkeep, hdepth]

/-! ## Memory -/

theorem step_memoryCanonical (h : step s = .next t) (hmem : MemoryCanonical s) : MemoryCanonical t := by
  obtain hkeep | ⟨_, _, _, a, v, -, -, -, hset⟩ := step_mem h
  · rwa [MemoryCanonical, hkeep]
  · rw [MemoryCanonical, hset]
    exact State.memWrite_wf hmem a (cellOfWord v)

end

/-! ## The whole invariant -/

/-- Settles O44: part by part; only the range of the pc needs another part, that of the stack, for `ret`. -/
theorem stepKeepsInvariant : Obligations.StepKeepsInvariant := by
  unfold Obligations.StepKeepsInvariant
  intro s t hs h
  exact {
    regs := step_keeps_regsAreWords hs.regs h
    pc := step_pcInRange h hs.stack
    stack := step_stackInRange h hs.stack
    fits := step_stackFits h hs.fits
    mem := step_memoryCanonical h hs.mem }

theorem inv_resetWith (input : Option (List Word)) (depth : Option Nat) : Inv (State.resetWith input depth) where
  regs := regsAreWords_resetWith input depth
  pc := by simp [PcInRange, State.resetWith]
  stack := by simp [StackInRange, State.resetWith]
  fits := by simp [StackFits, State.resetWith]
  mem := rfl

/-- Settles O45: `State.reset` is one of the reset states. -/
theorem resetMeetsInvariant : Obligations.ResetMeetsInvariant := by
  unfold Obligations.ResetMeetsInvariant
  exact ⟨inv_resetWith none none, inv_resetWith⟩

/-- An accepted launch is the reset state with the image loaded into empty memory (70_reset_and_hazards.md R262). -/
theorem eq_of_launch {image : List Cell} {input : Option (List Word)} {depth : Option Nat} {s : State}
    (h : launch image input depth = .loaded s) :
    s = { State.resetWith input depth with mem := Memory.load [] 0 image } := by
  by_cases hfit : image.length ≤ 32768
  · rw [launch_of_fits hfit] at h
    exact (LoadResult.loaded.inj h).symm
  · rw [launch, State.load, if_neg hfit] at h
    cases h

/-- Settles O46: only memory differs from reset, and the load keeps its canonical form, word by word of the image. -/
theorem launchMeetsInvariant : Obligations.LaunchMeetsInvariant := by
  unfold Obligations.LaunchMeetsInvariant
  intro image input depth s h
  rw [eq_of_launch h]
  exact { inv_resetWith input depth with mem := Memory.load_wf rfl 0 image }

/-- Settles O48: field by field. -/
theorem resetValues : Obligations.ResetValues := by
  unfold Obligations.ResetValues
  intro input depth
  refine ⟨fun k => ?_, fun a => rfl, rfl, rfl, rfl, rfl, rfl, rfl, rfl, rfl, rfl⟩
  simp [State.readReg, State.resetWith]

/-- Settles O9: a Word addresses every cell there is, and past the last address a canonical memory reads 0. -/
theorem canonicalMemoriesAgree : Obligations.CanonicalMemoriesAgree := by
  unfold Obligations.CanonicalMemoriesAgree
  intro m n hm hn h
  refine Memory.ext_of_read hm hn fun a => ?_
  by_cases ha : a < 32768
  · have hw := h (BitVec.ofNat 15 a)
    rwa [BitVec.toNat_ofNat, Nat.mod_eq_of_lt ha] at hw
  · have hge : 32768 ≤ a := Nat.le_of_not_lt ha
    rw [Memory.read_of_ge hm hge, Memory.read_of_ge hn hge]

end Sys2Proof.Machine
end

section
/-! SUPPORT. The result of each instruction when its operands resolve (41 to 46): the whole next state, by what its
handler answers and by the one way an instruction that answers it ends. -/

namespace Sys2Proof.Machine

section
variable {i : Instr} {s u : State} {k : Reg}

/-- An instruction whose handler leaves the pc alone ends at `A + n + 1` (40_dispatch.md R113). -/
theorem exec_advance_of_pc (h : handlerOf i (fetchedState i s) = .ok (.advance u))
    (hpc : u.pc = (fetchedState i s).pc) :
    exec i s = .next { u with pc := s.pc + BitVec.ofNat 16 (i.opcode.arity + 1) } := by
  rw [exec_advance h, hpc, ← nextPc_eq]
  rfl

/-- An operand resolves to the same value after the fetch as before it. -/
theorem getOperand_fetched {o : Operand} {v : Word} (h : s.getOperand o = .ok v) :
    (fetchedState i s).getOperand o = .ok v := (getOperand_fetchedState i s o).trans h

theorem cellOfWord_eq_ofNat {v : Word} {n : Nat} (h : v.toNat = n) : cellOfWord v = BitVec.ofNat 16 n := by
  rw [cellOfWord_eq, h]

/-! ## Move and stack (41_move_and_stack.md) -/

theorem exec_set {src : Operand} {v : Word} (hv : s.getOperand src = .ok v) :
    exec (.set (.register k) src) s = .next { s with regs := s.regs.set k (cellOfWord v), pc := s.pc + 3 } :=
  exec_advance_of_pc (i := .set (.register k) src)
    (setHandler_ok_iff.2 ⟨k, v, rfl, getOperand_fetched hv, rfl⟩) rfl

theorem exec_push {src : Operand} {v : Word} (hv : s.getOperand src = .ok v) (hroom : HasStackRoom s) :
    exec (.push src) s = .next { s with stack := s.stack ++ [cellOfWord v], pc := s.pc + 2 } :=
  exec_advance_of_pc (i := .push src)
    (pushHandler_ok_iff.2 ⟨v, getOperand_fetched hv, hroom, rfl⟩) rfl

theorem exec_pop {below : List Cell} {v : Cell} (hs : s.stack = below ++ [v]) (hv : v.toNat ≤ 32767) :
    exec (.pop (.register k)) s = .next { s with regs := s.regs.set k v, stack := below, pc := s.pc + 2 } :=
  exec_advance_of_pc (i := .pop (.register k)) (popHandler_ok_iff.2 ⟨k, below, v, rfl, hs, hv, rfl⟩) rfl

/-- Settles O11, by `exec_set`. -/
theorem setWritesRegister : Obligations.SetWritesRegister := by
  unfold Obligations.SetWritesRegister
  intro s k src v hv
  rw [exec_set hv, cellOfWord_eq]

/-- Settles O12, by `exec_push`. -/
theorem pushAppendsValue : Obligations.PushAppendsValue := by
  unfold Obligations.PushAppendsValue
  intro s src v hv hroom
  rw [exec_push hv hroom, cellOfWord_eq]

/-- Settles O13, by `exec_pop`. -/
theorem popTakesTail : Obligations.PopTakesTail := by
  unfold Obligations.PopTakesTail
  intro s k below v hs hv
  exact exec_pop hs hv

/-! ## The ALU (42_compare.md, 44_alu.md) -/

/-- The instructions `dest, b, c` of the ALU: the register holds the result, given as a number. -/
theorem exec_alu3 {op : AluOp} {b c : Operand} {x y r : Word} {n : Nat}
    (hi : handlerOf i = aluHandler3 op (.register k) b c) (hx : s.getOperand b = .ok x) (hy : s.getOperand c = .ok y)
    (hr : alu op x y = some r) (hn : r.toNat = n) :
    exec i s = .next { s with
      regs := s.regs.set k (BitVec.ofNat 16 n), pc := s.pc + BitVec.ofNat 16 (i.opcode.arity + 1) } := by
  have hok : handlerOf i (fetchedState i s) = .ok (.advance ((fetchedState i s).setReg k (cellOfWord r))) := by
    rw [hi]
    exact aluHandler3_ok_iff.2
      ⟨k, x, y, r, rfl, getOperand_fetched hx, getOperand_fetched hy, hr, rfl⟩
  rw [exec_advance_of_pc hok rfl, cellOfWord_eq_ofNat hn]
  rfl

theorem exec_not {src : Operand} {x : Word} (hx : s.getOperand src = .ok x) :
    exec (.not (.register k) src) s =
      .next { s with regs := s.regs.set k (BitVec.ofNat 16 (32767 - x.toNat)), pc := s.pc + 3 } := by
  rw [← cellOfWord_eq_ofNat (xor_allBits_toNat x)]
  exact exec_advance_of_pc (i := .not (.register k) src)
    (aluHandler2_ok_iff.2 ⟨k, x, _, rfl, getOperand_fetched hx, rfl, rfl⟩) rfl

/-- The 1 or 0 of a compare (R140, R141), as a Word and as the cell of that Word. -/
theorem toNat_one_or_zero (p : Prop) [Decidable p] : (if p then 1 else 0 : Word).toNat = if p then 1 else 0 := by
  split <;> rfl

theorem ofNat_one_or_zero (p : Prop) [Decidable p] :
    BitVec.ofNat 16 (if p then 1 else 0) = (if p then 1 else 0 : Cell) := by
  split <;> rfl

/-- Settles O14: the ALU gives 1 or 0 by the numbers compared. -/
theorem comparesWriteOneOrZero : Obligations.ComparesWriteOneOrZero := by
  unfold Obligations.ComparesWriteOneOrZero
  intro s k b c x y hx hy
  constructor
  · rw [exec_alu3 rfl hx hy (alu_eq_toNat x y) (toNat_one_or_zero _), ofNat_one_or_zero]
    rfl
  · rw [exec_alu3 rfl hx hy (alu_gt_toNat x y) (toNat_one_or_zero _), ofNat_one_or_zero]
    rfl

/-- Settles O18: sum and product are reduced; a remainder needs no reduction. -/
theorem arithmeticIsExactModulo : Obligations.ArithmeticIsExactModulo := by
  unfold Obligations.ArithmeticIsExactModulo
  intro s k b c x y hx hy
  refine ⟨exec_alu3 rfl hx hy rfl (reduce_toNat _), exec_alu3 rfl hx hy rfl (reduce_toNat _), fun hy0 => ?_⟩
  exact exec_alu3 rfl hx hy (alu_mod_of_ne_zero x hy0) (reduce_mod_toNat x y)

/-- Settles O19: the bit operations on Words are those on their numbers, and `not` is the complement. -/
theorem logicWorksOnFifteenBits : Obligations.LogicWorksOnFifteenBits := by
  unfold Obligations.LogicWorksOnFifteenBits
  intro s k b c x y hx hy
  exact ⟨exec_alu3 rfl hx hy rfl (BitVec.toNat_and x y), exec_alu3 rfl hx hy rfl (BitVec.toNat_or x y), exec_not hx⟩

/-! ## Control transfer (43_control_transfer.md) -/

theorem exec_jmp {target : Operand} {v : Word} (hv : s.getOperand target = .ok v) :
    exec (.jmp target) s = .next { s with pc := cellOfWord v } :=
  exec_jump (u := fetchedState (.jmp target) s)
    (jmpHandler_ok_iff.2 ⟨v, getOperand_fetched hv, rfl⟩)

theorem exec_jt_taken {cond target : Operand} {c v : Word} (hc : s.getOperand cond = .ok c) (hn : c ≠ 0)
    (hv : s.getOperand target = .ok v) : exec (.jt cond target) s = .next { s with pc := cellOfWord v } :=
  exec_jump (u := fetchedState (.jt cond target) s) (jtHandler_ok_iff.2 (.inl
    ⟨⟨c, getOperand_fetched hc, hn⟩, v, getOperand_fetched hv, rfl⟩))

theorem exec_jt_falls {cond target : Operand} (hc : s.getOperand cond = .ok 0) :
    exec (.jt cond target) s = .next { s with pc := s.pc + 3 } :=
  exec_advance_of_pc (u := fetchedState (.jt cond target) s)
    (jtHandler_ok_iff.2 (.inr ⟨getOperand_fetched hc, rfl⟩)) rfl

theorem exec_jf_taken {cond target : Operand} {v : Word} (hc : s.getOperand cond = .ok 0)
    (hv : s.getOperand target = .ok v) : exec (.jf cond target) s = .next { s with pc := cellOfWord v } :=
  exec_jump (u := fetchedState (.jf cond target) s) (jfHandler_ok_iff.2 (.inl
    ⟨getOperand_fetched hc, v, getOperand_fetched hv, rfl⟩))

theorem exec_jf_falls {cond target : Operand} {c : Word} (hc : s.getOperand cond = .ok c) (hn : c ≠ 0) :
    exec (.jf cond target) s = .next { s with pc := s.pc + 3 } :=
  exec_advance_of_pc (u := fetchedState (.jf cond target) s)
    (jfHandler_ok_iff.2 (.inr ⟨⟨c, getOperand_fetched hc, hn⟩, rfl⟩)) rfl

theorem exec_call {target : Operand} {v : Word} (hv : s.getOperand target = .ok v) (hroom : HasStackRoom s) :
    exec (.call target) s = .next { s with stack := s.stack ++ [s.pc + 2], pc := cellOfWord v } := by
  have hret : s.pc + 2 = (fetchedState (.call target) s).pc + 1 := (nextPc_eq (.call target) s).symm
  rw [hret]
  exact exec_jump (i := .call target)
    (callHandler_ok_iff.2 ⟨v, getOperand_fetched hv, hroom, rfl⟩)

theorem exec_ret {below : List Cell} {v : Cell} (hs : s.stack = below ++ [v]) :
    exec .ret s = .next { s with stack := below, pc := v } :=
  exec_jump (i := .ret) (retHandler_ok_iff.2 ⟨below, v, hs, rfl⟩)

/-- Settles O15: taken and not taken, jump by jump. -/
theorem jumpsGoToTarget : Obligations.JumpsGoToTarget := by
  unfold Obligations.JumpsGoToTarget
  intro s cond target c hc
  refine ⟨fun v hv => ?_, fun hz => exec_jt_falls (hz ▸ hc), fun hn => exec_jf_falls hc hn⟩
  rw [← cellOfWord_eq]
  exact ⟨exec_jmp hv, fun hn => exec_jt_taken hc hn hv, fun hz => exec_jf_taken (hz ▸ hc) hv⟩

/-- Settles O16, by `exec_call`. -/
theorem callPushesReturnAddress : Obligations.CallPushesReturnAddress := by
  unfold Obligations.CallPushesReturnAddress
  intro s target v hv hroom
  rw [exec_call hv hroom, cellOfWord_eq]

/-- Settles O17, by `exec_ret`. -/
theorem retPopsPc : Obligations.RetPopsPc := by
  unfold Obligations.RetPopsPc
  intro s below v hs
  exact exec_ret hs

/-! ## Memory access (45_memory_access.md) -/

theorem exec_writeMem {addr src : Operand} {a v : Word} (ha : s.getOperand addr = .ok a)
    (hv : s.getOperand src = .ok v) :
    exec (.writeMem addr src) s =
      .next { s with mem := s.mem.write a.toNat (cellOfWord v), pc := s.pc + 3 } :=
  exec_advance_of_pc (u := (fetchedState (.writeMem addr src) s).memWrite a (cellOfWord v))
    (writeMemHandler_ok_iff.2
      ⟨a, v, getOperand_fetched ha, getOperand_fetched hv, rfl⟩) rfl

theorem exec_readMem {addr : Operand} {a : Word} (ha : s.getOperand addr = .ok a)
    (hw : (s.memRead a).toNat ≤ 32767) :
    exec (.readMem (.register k) addr) s =
      .next { s with regs := s.regs.set k (s.memRead a), pc := s.pc + 3 } :=
  exec_advance_of_pc (i := .readMem (.register k) addr)
    (readMemHandler_ok_iff.2 ⟨k, a, rfl, getOperand_fetched ha, hw, rfl⟩) rfl

/-- Settles O20: the store is one `memWrite`, read back by `memRead_memWrite`. -/
theorem writeMemStoresCell : Obligations.WriteMemStoresCell := by
  unfold Obligations.WriteMemStoresCell
  intro s addr src a v ha hv
  have hread (b : Word) : State.memRead { s with mem := s.mem.write a.toNat (cellOfWord v), pc := s.pc + 3 } b =
      if b = a then cellOfWord v else s.memRead b := s.memRead_memWrite a b (cellOfWord v)
  refine ⟨_, exec_writeMem ha hv, rfl, ?_, fun b hb => ?_⟩
  · rw [hread, if_pos rfl, cellOfWord_toNat]
  · rw [hread, if_neg hb]

/-- Settles O21, by `exec_readMem`. -/
theorem readMemLoadsCell : Obligations.ReadMemLoadsCell := by
  unfold Obligations.ReadMemLoadsCell
  intro s k addr a ha hw
  exact exec_readMem ha hw

/-! ## System and input/output (46_system_io.md) -/

theorem exec_out {src : Operand} {v : Word} (hv : s.getOperand src = .ok v) :
    exec (.out src) s = .next { s with out := s.out ++ [v], pc := s.pc + 2 } :=
  exec_advance_of_pc (i := .out src) (outHandler_ok_iff.2 ⟨v, getOperand_fetched hv, rfl⟩) rfl

theorem exec_input {c : Word} {more : List Word} (hi : s.inp = some (c :: more)) :
    exec (.input (.register k)) s =
      .next { s with regs := s.regs.set k (cellOfWord c), inp := some more, pc := s.pc + 2 } :=
  exec_advance_of_pc (i := .input (.register k)) (inputHandler_ok_iff.2 ⟨k, c, more, rfl, hi, rfl⟩) rfl

/-- `exec_halt` with the pc as R200 gives it. -/
theorem exec_halt_pc (s : State) : exec .halt s = .next { s with run := .halted, pc := s.pc + 1 } := by
  rw [exec_halt, nextPc_eq]
  rfl

/-- Settles O24, by `exec_out`. -/
theorem outEmitsCode : Obligations.OutEmitsCode := by
  unfold Obligations.OutEmitsCode
  intro s src v hv
  exact exec_out hv

/-- Settles O25, by `exec_input`. -/
theorem inConsumesOneCode : Obligations.InConsumesOneCode := by
  unfold Obligations.InConsumesOneCode
  intro s k c more hi
  rw [exec_input hi, cellOfWord_eq]

/-- The status of an unfaulted HALTED state, and why it has no step (10_state.md R37, R35). -/
theorem status_of_halted (hf : s.fault = none) (hr : s.run = .halted) : s.status = .halted := by
  simp [State.status, hf, hr]

theorem step_of_halted (hf : s.fault = none) (hr : s.run = .halted) : step s = .fault .halted := by
  have hs : s.hasStep = false := by simp [State.hasStep, hr]
  rw [step_stops hs]
  simp [State.stopReason, hf, hr]

/-- Settles O22: the cell 0 is the whole of `halt`, and no fault stands when the engine has a step. -/
theorem haltStopsTheRun : Obligations.HaltStopsTheRun := by
  unfold Obligations.HaltStopsTheRun
  intro s
  refine ⟨exec_halt_pc s, fun hs hop => ⟨_, ?_, rfl, ?_, ?_⟩⟩
  · rw [step_of_opcodeCell (i := .halt) rfl hs hop, exec_halt_pc]
  · exact status_of_halted (hasStep_iff.1 hs).2.1 rfl
  · exact step_of_halted (hasStep_iff.1 hs).2.1 rfl

end

end Sys2Proof.Machine
end

section
/-! SUPPORT. Faults (60_exceptions.md): the condition for each cause, which instructions have it, and that a faulting
step leaves everything but the pc and the record alone. -/

namespace Sys2Proof.Machine

section
variable {i : Instr} {s t : State}

/-! ## InvalidOperand (R230) -/

/-- A handler raises InvalidOperand exactly on a use of a bad operand. -/
theorem handlerOf_invalidOperand_iff : handlerOf i s = .error .invalidOperand ↔ UsesBadOperand s i := by
  cases i <;> simp only [handlerOf, UsesBadOperand]
  case halt => simp [haltHandler_no_error]
  case noop => simp [noopHandler_no_error]
  case ret => simp [retHandler_error_iff]
  case set => simp [setHandler_error_iff]
  case push => simp [pushHandler_error_iff]
  case pop => simp [popHandler_error_iff]
  case eq | gt | add | mult | mod | and | or => simp [aluHandler3_error_iff]
  case not => simp [aluHandler2_not_error_iff]
  case jmp => simp [jmpHandler_error_iff]
  case jt => simp [jtHandler_error_iff]
  case jf => simp [jfHandler_error_iff]
  case call => simp [callHandler_error_iff]
  case writeMem => simp [writeMemHandler_error_iff]
  case readMem => simp [readMemHandler_error_iff]
  case out => simp [outHandler_error_iff]
  case input => simp [inputHandler_error_iff]

/-- Whether an operand is bad does not depend on the pc. -/
theorem usesBadOperand_fetchedState (j : Instr) : UsesBadOperand (fetchedState j s) i ↔ UsesBadOperand s i := by
  cases i with
  | jt | jf => simp only [UsesBadOperand, resolvesToTrue_fetched, getOperand_fetchedState]
  | _ => exact Iff.rfl

/-- From a state without a fault, the record that stands afterwards is the one that the handler raised. -/
theorem handler_error_of_fault {r : FaultRecord} (hs : s.fault = none) (h : exec i s = .next t)
    (ht : t.fault = some r) : handlerOf i (fetchedState i s) = .error r.cause := by
  obtain hkeep | ⟨c, hc, rfl⟩ := exec_fault h
  · rw [hkeep, hs] at ht
    cases ht
  · obtain rfl := Option.some.inj ht
    exact hc

/-- Settles O26: both directions of `handlerOf_invalidOperand_iff`. -/
theorem badOperandFaults : Obligations.BadOperandFaults := by
  unfold Obligations.BadOperandFaults
  intro s i
  refine ⟨fun hbad => ?_, fun t r hs h ht hr => ?_⟩
  · exact exec_raise (handlerOf_invalidOperand_iff.2 ((usesBadOperand_fetchedState i).2 hbad))
  · have hraised := handler_error_of_fault hs h ht
    rw [hr] at hraised
    exact (usesBadOperand_fetchedState i).1 (handlerOf_invalidOperand_iff.1 hraised)

/-! ## The other causes of a handler (R222 to R228) -/

/-- Settles O27: the checks that follow the destination find the stack empty. -/
theorem emptyStackFaults : Obligations.EmptyStackFaults := by
  unfold Obligations.EmptyStackFaults
  intro s k hs
  exact ⟨exec_raise (popHandler_error_iff.2 (.inr (.inl ⟨rfl, hs, rfl⟩))),
    exec_raise (retHandler_error_iff.2 ⟨hs, rfl⟩)⟩

/-- Settles O28: the operands resolve, and the ALU has no remainder by 0. -/
theorem zeroDivisorFaults : Obligations.ZeroDivisorFaults := by
  unfold Obligations.ZeroDivisorFaults
  intro s k b c x hb hc
  exact exec_raise (aluHandler3_error_iff.2
    (.inr ⟨⟨rfl, isInvalid_false_of_getOperand hb, rfl, getOperand_fetched hc⟩, rfl⟩))

/-- Settles O29: the register write port refuses the cell, after every other check has passed. -/
theorem wideValueFaults : Obligations.WideValueFaults := by
  unfold Obligations.WideValueFaults
  refine ⟨fun s k addr a ha hw => ?_, fun s k below v hs hw => ?_⟩
  · exact exec_raise (readMemHandler_error_iff.2 (.inr ⟨rfl, ⟨a, getOperand_fetched ha, hw⟩, rfl⟩))
  · exact exec_raise (popHandler_error_iff.2 (.inr (.inr ⟨rfl, ⟨below, v, hs, hw⟩, rfl⟩)))

/-- Settles O30: the destination is a register, and there is no code to take. -/
theorem noInputFaults : Obligations.NoInputFaults := by
  unfold Obligations.NoInputFaults
  intro s k hs
  exact exec_raise (inputHandler_error_iff.2 (.inr ⟨rfl, hs, rfl⟩))

theorem not_hasStackRoom {depth : Nat} (hd : s.stackDepth = some depth) (hfull : depth ≤ s.stack.length) :
    ¬ HasStackRoom s := fun hroom => absurd (hroom.lt_depth hd) (Nat.not_lt.2 hfull)

/-- Settles O31: the operand resolves, and the stack has no room. -/
theorem fullStackFaults : Obligations.FullStackFaults := by
  unfold Obligations.FullStackFaults
  intro s o v depth hv hd hfull
  have hvalid := isInvalid_false_of_getOperand hv
  have hroom := not_hasStackRoom hd hfull
  exact ⟨exec_raise (pushHandler_error_iff.2 (.inr ⟨hvalid, hroom, rfl⟩)),
    exec_raise (callHandler_error_iff.2 (.inr ⟨hvalid, hroom, rfl⟩))⟩

/-! ## Which instructions raise which cause (R221) -/

/-- The column "raised by" of the table of R221, for the causes that a handler can raise. -/
def MayRaise (i : Instr) (s : State) : Cause → Prop
  | .stackUnderflow => i.opcode = .pop ∨ i.opcode = .ret
  | .divideOrModByZero => i.opcode = .mod
  | .invalidOperand => i.opcode ≠ .halt ∧ i.opcode ≠ .ret ∧ i.opcode ≠ .noop
  | .fetchOutOfRange => False
  | .registerRangeViolation => i.opcode = .readMem ∨ i.opcode = .pop
  | .inputUnavailable => i.opcode = .input
  | .stackOverflow => (i.opcode = .push ∨ i.opcode = .call) ∧ s.stackDepth ≠ none

theorem stackDepth_ne_none (h : ¬ HasStackRoom s) : s.stackDepth ≠ none := fun hn => h (.inl hn)

/-- An instruction that uses a bad operand has an operand. -/
theorem mayRaise_invalidOperand (h : UsesBadOperand s i) : MayRaise i s .invalidOperand := by
  cases i with
  | halt | ret | noop => exact h.elim
  | _ => simp [MayRaise, Instr.opcode]

/-- What a handler raises, the table allows: InvalidOperand by its own lemma, and few instructions raise any other. -/
theorem mayRaise_of_handler_error {c : Cause} (h : handlerOf i s = .error c) : MayRaise i s c := by
  by_cases hc : c = .invalidOperand
  · subst hc
    exact mayRaise_invalidOperand (handlerOf_invalidOperand_iff.1 h)
  cases i <;> simp only [handlerOf] at h
  case halt => exact (haltHandler_no_error h).elim
  case noop => exact (noopHandler_no_error h).elim
  case set => exact absurd (setHandler_error_iff.1 h).2 hc
  case not => exact absurd (aluHandler2_not_error_iff.1 h).2 hc
  case jmp => exact absurd (jmpHandler_error_iff.1 h).2 hc
  case jt => exact absurd (jtHandler_error_iff.1 h).2 hc
  case jf => exact absurd (jfHandler_error_iff.1 h).2 hc
  case writeMem => exact absurd (writeMemHandler_error_iff.1 h).2 hc
  case out => exact absurd (outHandler_error_iff.1 h).2 hc
  case push =>
    obtain ⟨-, hbad⟩ | ⟨-, hroom, rfl⟩ := pushHandler_error_iff.1 h
    · exact absurd hbad hc
    · exact ⟨.inl rfl, stackDepth_ne_none hroom⟩
  case call =>
    obtain ⟨-, hbad⟩ | ⟨-, hroom, rfl⟩ := callHandler_error_iff.1 h
    · exact absurd hbad hc
    · exact ⟨.inr rfl, stackDepth_ne_none hroom⟩
  case pop =>
    obtain ⟨-, hbad⟩ | ⟨-, -, rfl⟩ | ⟨-, -, rfl⟩ := popHandler_error_iff.1 h
    · exact absurd hbad hc
    · exact .inl rfl
    · exact .inr rfl
  case ret =>
    obtain ⟨-, rfl⟩ := retHandler_error_iff.1 h
    exact .inr rfl
  case mod =>
    obtain ⟨-, hbad⟩ | ⟨-, rfl⟩ := aluHandler3_error_iff.1 h
    · exact absurd hbad hc
    · rfl
  case eq | gt | add | mult | and | or =>
    obtain ⟨-, hbad⟩ | ⟨⟨-, -, hop, -⟩, -⟩ := aluHandler3_error_iff.1 h
    · exact absurd hbad hc
    · cases hop
  case readMem =>
    obtain ⟨-, hbad⟩ | ⟨-, -, rfl⟩ := readMemHandler_error_iff.1 h
    · exact absurd hbad hc
    · exact .inl rfl
  case input =>
    obtain ⟨-, hbad⟩ | ⟨-, -, rfl⟩ := inputHandler_error_iff.1 h
    · exact absurd hbad hc
    · rfl

/-- So it is for the fetched state, which has the same depth. -/
theorem mayRaise_of_fetched_error {c : Cause} (h : handlerOf i (fetchedState i s) = .error c) : MayRaise i s c :=
  mayRaise_of_handler_error (s := fetchedState i s) h

/-- Settles O34: the record stands because the handler raised it, and the handler keeps to the table. -/
theorem faultCausesByInstruction : Obligations.FaultCausesByInstruction := by
  unfold Obligations.FaultCausesByInstruction
  intro s t i r hs h ht
  exact mayRaise_of_fetched_error (handler_error_of_fault hs h ht)

/-! ## Fetching past the end, and precision (R224, R229, R235) -/

/-- The state after a fetch past the end, in terms of memory (40_dispatch.md R116). -/
theorem fetchOffEnd_eq {o : Opcode} (ho : opcodeOf (s.mem.read s.pc.toNat) = some o) :
    s.fetchOffEnd o = { s with
      pc := 32768
      fault := some { cause := .fetchOutOfRange, opcode := s.mem.read s.pc.toNat, addr := s.pc } } := by
  rw [State.fetchOffEnd, opcodeCell_of_opcodeOf ho]
  rfl

/-- Settles O32: the fetch is cut off, and the step takes the fault. -/
theorem fetchPastEndFaults : Obligations.FetchPastEndFaults := by
  unfold Obligations.FetchPastEndFaults
  intro s op hs hop hlen
  rw [step_offEnd hs (fetch_truncated (hasStep_iff.1 hs).2.2 hop hlen), fetchOffEnd_eq hop]

/-- Settles O33: a step records a fault by raising it in the handler of the fetched instruction, or by running off the
end of memory; skipping an unknown opcode records none. -/
theorem faultsArePrecise : Obligations.FaultsArePrecise := by
  unfold Obligations.FaultsArePrecise
  intro s t h hfault
  obtain ⟨hs, hends⟩ := step_next h
  obtain ⟨-, hnone, hpc⟩ := hasStep_iff.1 hs
  cases hends with
  | runs i rest hf he =>
    obtain hkeep | ⟨c, hc, rfl⟩ := exec_fault (exec_next_iff.2 he)
    · exact absurd (hkeep.trans hnone) hfault
    · refine ⟨c, _, ?_, .inr ⟨?_, i, rest, hf, rfl⟩⟩
      · rw [(fetch_ok hpc hf).1, faultState]
      · rintro rfl
        have hmay : MayRaise i s .fetchOutOfRange := mayRaise_of_fetched_error hc
        exact hmay
  | skips _ _ ht =>
    rw [ht, State.skipUnknown_fault] at hfault
    exact absurd hnone hfault
  | offEnd o _ ho _ ht => exact ⟨_, _, ht.trans (fetchOffEnd_eq ho), .inl ⟨rfl, rfl⟩⟩

end

end Sys2Proof.Machine
end

section
/-! SUPPORT. The step (40_dispatch.md R110): when there is one, what it runs, where the pc goes, and which pieces of
state each instruction may change. -/

namespace Sys2Proof.Machine

section
variable {i : Instr} {s t : State}

/-- Settles O35: the fetch reads the instruction, and the step runs it. -/
theorem stepRunsDecodedInstruction : Obligations.StepRunsDecodedInstruction := by
  unfold Obligations.StepRunsDecodedInstruction
  refine ⟨fun s i rest hs hf => step_runs hs hf, fun s i hs hw hcells => ?_⟩
  obtain ⟨rest, hf⟩ := fetch_of_cellsAt hw hcells
  exact step_runs hs hf

/-- The engine has a step exactly where `step` gives a next state. -/
theorem step_next_iff_hasStep : (∃ t, step s = .next t) ↔ s.hasStep = true :=
  ⟨fun ⟨_, h⟩ => (step_next h).1, step_total⟩

/-- Settles O36: a next state while the engine has a step, and otherwise the reason, in the order of R37. -/
theorem stepsExactlyWhileRunning : Obligations.StepsExactlyWhileRunning := by
  unfold Obligations.StepsExactlyWhileRunning
  intro s
  refine ⟨step_next_iff_hasStep.trans hasStep_iff, fun r hr => ?_, step_of_halted, fun hf hr hpc => ?_,
    fun r h => ?_⟩
  · have hs : s.hasStep = false := by simp [State.hasStep, hr]
    rw [step_stops hs, State.stopReason, hr]
  · have hs : s.hasStep = false := by simp [State.hasStep, hpc]
    rw [step_stops hs]
    simp [State.stopReason, hf, hr]
  · cases hs : s.hasStep with
    | false =>
      rw [step_stops hs] at h
      cases h
    | true =>
      obtain ⟨t, ht⟩ := step_total hs
      rw [ht] at h
      cases h

/-- Settles O37: the fetch names the unknown opcode, and the step skips it. -/
theorem unknownOpcodeSkips : Obligations.UnknownOpcodeSkips := by
  unfold Obligations.UnknownOpcodeSkips
  intro s hs hop
  rw [step_skips hs (fetch_unknown (hasStep_iff.1 hs).2.2 hop)]
  rfl

/-! ## The pc (R113) -/

/-- Only the five instructions of control transfer have a target. -/
theorem opcode_of_transfersTo {target : Cell} (h : TransfersTo s i target) :
    i.opcode ∈ [.jmp, .jt, .jf, .call, .ret] := by
  cases i with
  | jmp | jt | jf | call | ret => simp [Instr.opcode]
  | _ => exact h.elim

theorem not_transfersTo_of_registerOnly (h : i.opcode ∈ registerOnly) (target : Cell) : ¬ TransfersTo s i target :=
  fun ht => by
    have hdisjoint : ∀ o ∈ registerOnly, o ∉ [.jmp, .jt, .jf, .call, .ret] := by decide
    exact hdisjoint _ h (opcode_of_transfersTo ht)

/-- The target named by an operand, once resolved. -/
theorem target_unique {o : Operand} {a b : Cell} (ha : ∃ v, s.getOperand o = .ok v ∧ a = BitVec.ofNat 16 v.toNat)
    (hb : ∃ v, s.getOperand o = .ok v ∧ b = BitVec.ofNat 16 v.toNat) : a = b := by
  obtain ⟨v, hv, rfl⟩ := ha
  obtain ⟨w, hw, rfl⟩ := hb
  rw [getOperand_ok_unique hv hw]

theorem transfersTo_unique {a b : Cell} (ha : TransfersTo s i a) (hb : TransfersTo s i b) : a = b := by
  cases i with
  | jmp | call => exact target_unique ha hb
  | jt | jf => exact target_unique ha.2 hb.2
  | ret => exact Option.some.inj (ha.symm.trans hb)
  | _ => exact ha.elim

/-- An instruction that completes goes to its target, or has none and advances. -/
theorem exec_pc (h : exec i s = .next t) (ht : t.fault = none) :
    TransfersTo s i t.pc ∨ ((∀ target, ¬ TransfersTo s i target) ∧ t.pc = nextPc i s) := by
  cases exec_effect h with
  | raises c => cases ht
  | writesReg k v hop => exact .inr ⟨not_transfersTo_of_registerOnly hop, rfl⟩
  | jumps target _ hto => exact .inl hto
  | falls _ hno => exact .inr ⟨hno, rfl⟩
  | calls o v hi hv =>
    subst hi
    exact .inl ⟨v, hv, cellOfWord_eq v⟩
  | returns below v hi hst =>
    subst hi
    exact .inl (by simp [TransfersTo, hst])
  | pushes _ _ hi | pops _ _ _ hi | stores _ _ _ _ hi | emits _ _ hi | takes _ _ _ hi | halts hi =>
    subst hi
    exact .inr ⟨fun _ hto => hto, rfl⟩

/-- Settles O38: `exec_pc`, and there is at most one target. -/
theorem genericAdvanceOrTransfer : Obligations.GenericAdvanceOrTransfer := by
  unfold Obligations.GenericAdvanceOrTransfer
  intro s t i _ h ht
  obtain hto | ⟨hno, hpc⟩ := exec_pc h ht
  · exact ⟨fun target htarget => transfersTo_unique hto htarget, fun hno => absurd hto (hno _)⟩
  · exact ⟨fun target htarget => absurd htarget (hno target), fun _ => hpc⟩

/-! ## Who changes what (10_state.md R24, R33, R39 to R41) -/

/-- Settles O40: a step that runs no instruction keeps the registers; the rest is `exec_changes_reg`. -/
theorem onlyWritersChangeRegisters : Obligations.OnlyWritersChangeRegisters := by
  unfold Obligations.OnlyWritersChangeRegisters
  intro s t k h hk
  cases (step_next h).2 with
  | runs i rest hf he =>
    obtain ⟨hop, hd⟩ := exec_changes_reg (exec_next_iff.2 he) hk
    exact ⟨i, rest, hf, hd, hop⟩
  | skips _ _ ht => exact absurd (readReg_congr (by simp [ht]) k) hk
  | offEnd _ _ _ _ ht => exact absurd (readReg_congr (by simp [ht]) k) hk

/-- Settles O41, by `exec_stack`. -/
theorem onlyStackInstructionsChangeStack : Obligations.OnlyStackInstructionsChangeStack := by
  unfold Obligations.OnlyStackInstructionsChangeStack
  intro s t h hstack
  obtain ⟨i, rest, hf, -, he⟩ | ⟨hkeep, -⟩ := step_runs_or_keeps_stack h
  · obtain hkeep | ⟨hop, -, v, hadd, -⟩ | hdrop := exec_stack he
    · exact absurd hkeep hstack
    · exact ⟨i, rest, hf, .inl ⟨hop, v, hadd⟩⟩
    · exact ⟨i, rest, hf, .inr hdrop⟩
  · exact absurd hkeep hstack

theorem step_out_stream (h : step s = .next t) :
    t.out = s.out ∨ ∃ src rest v, s.fetch = .ok (.out src, rest) ∧ t.out = s.out ++ [v] := by
  cases (step_next h).2 with
  | runs i rest hf he =>
    obtain hkeep | ⟨src, v, rfl, hadd⟩ := exec_out_stream (exec_next_iff.2 he)
    · exact .inl hkeep
    · exact .inr ⟨src, rest, v, hf, hadd⟩
  | skips _ _ ht => exact .inl (by simp [ht])
  | offEnd _ _ _ _ ht => exact .inl (by simp [ht])

theorem step_diag (h : step s = .next t) :
    t.diag = s.diag ∨ ∃ op, s.fetch = .error (.unknownOpcode op) ∧
      t.diag = s.diag ++ [{ addr := s.pc, opcode := op }] := by
  cases (step_next h).2 with
  | runs i rest hf he => exact .inl (exec_keeps_diag (exec_next_iff.2 he))
  | skips hf _ ht => exact .inr ⟨_, hf, by rw [ht, State.skipUnknown_diag]⟩
  | offEnd _ _ _ _ ht => exact .inl (by simp [ht])

theorem step_inp (h : step s = .next t) :
    t.inp = s.inp ∨ ∃ dest rest c more, s.fetch = .ok (.input dest, rest) ∧ s.inp = some (c :: more) ∧
      t.inp = some more := by
  cases (step_next h).2 with
  | runs i rest hf he =>
    obtain hkeep | ⟨dest, c, more, rfl, htake⟩ := exec_inp (exec_next_iff.2 he)
    · exact .inl hkeep
    · exact .inr ⟨dest, rest, c, more, hf, htake⟩
  | skips _ _ ht => exact .inl (by simp [ht])
  | offEnd _ _ _ _ ht => exact .inl (by simp [ht])

/-- Settles O42: stream by stream. -/
theorem streamsChangeOnlyByTheirInstruction : Obligations.StreamsChangeOnlyByTheirInstruction := by
  unfold Obligations.StreamsChangeOnlyByTheirInstruction
  intro s t h
  exact ⟨(step_out_stream h).resolve_left, (step_diag h).resolve_left, (step_inp h).resolve_left⟩

/-! ## Nothing reads the output or the diagnostics back (R39, R41) -/

/-- `out` appends the code its operand resolves to, whatever is there; if it does not resolve, it appends nothing. -/
theorem exec_out_withStreams {src : Operand} (h : exec (.out src) s = .next t) (out : List Word)
    (diag : List DiagRecord) :
    ∃ newOut, t.out = s.out ++ newOut ∧
      exec (.out src) { s with out := out, diag := diag } = .next { t with out := out ++ newOut, diag := diag } := by
  cases hv : s.getOperand src with
  | ok v =>
    rw [exec_out hv] at h
    obtain rfl := Host.Outcome.next.inj h
    exact ⟨[v], rfl, exec_out ((getOperand_congr rfl src).trans hv)⟩
  | error e =>
    obtain ⟨hbad, -⟩ := getOperand_error_iff.1 hv
    have hfault : ∀ u, exec (.out src) u = .next (faultState (.out src) u .invalidOperand) := fun u =>
      exec_raise (outHandler_error_iff.2 ⟨hbad, rfl⟩)
    rw [hfault] at h
    obtain rfl := Host.Outcome.next.inj h
    refine ⟨[], (List.append_nil _).symm, ?_⟩
    rw [hfault, List.append_nil]
    rfl

theorem eq_halt_of_opcode (h : i.opcode = .halt) : i = .halt := by
  cases i with
  | halt => rfl
  | _ => cases h

/-- An instruction does the same whatever the output and the diagnostics hold, but for the codes it appends. -/
theorem exec_withStreams (h : exec i s = .next t) (out : List Word) (diag : List DiagRecord) :
    ∃ newOut, t.out = s.out ++ newOut ∧
      exec i { s with out := out, diag := diag } = .next { t with out := out ++ newOut, diag := diag } := by
  by_cases ho : i.opcode = .out
  · cases i with
    | out src => exact exec_out_withStreams h out diag
    | _ => cases ho
  · refine ⟨[], by rw [exec_keeps_out ho h, List.append_nil], ?_⟩
    rw [List.append_nil]
    by_cases hh : i = .halt
    · subst hh
      rw [exec_halt] at h ⊢
      rw [← Host.Outcome.next.inj h]
      rfl
    · have ht : t.relabel s.run out diag = { t with out := out, diag := diag } := by
        rw [← exec_keeps_run hh h, State.relabel]
      rw [← ht]
      exact exec_relabel (mt eq_halt_of_opcode hh) ho h s.run out diag

/-- Settles O43: the fetch and the check for a step do not see the streams, and each way of stepping appends what it
appends to any content. -/
theorem outputNeverReadBack : Obligations.OutputNeverReadBack := by
  unfold Obligations.OutputNeverReadBack
  intro s t out diag h
  obtain ⟨hs, hends⟩ := step_next h
  have hs' : ({ s with out := out, diag := diag } : State).hasStep = true := hs
  have hfetch : ({ s with out := out, diag := diag } : State).fetch = s.fetch := fetch_congr rfl rfl
  cases hends with
  | runs i rest hf he =>
    have hx := exec_next_iff.2 he
    obtain ⟨newOut, hout, hrun⟩ := exec_withStreams hx out diag
    refine ⟨newOut, [], hout, by rw [exec_keeps_diag hx, List.append_nil], ?_⟩
    rw [step_runs hs' (hfetch.trans hf), hrun, List.append_nil]
  | skips hf _ ht =>
    subst ht
    refine ⟨[], _, (List.append_nil _).symm, rfl, ?_⟩
    rw [step_skips hs' (hfetch.trans hf), List.append_nil]
    rfl
  | offEnd o hf _ _ ht =>
    subst ht
    refine ⟨[], [], (List.append_nil _).symm, (List.append_nil _).symm, ?_⟩
    rw [step_offEnd hs' (hfetch.trans hf), List.append_nil, List.append_nil]
    rfl

end

end Sys2Proof.Machine
end

section
/-! SUPPORT. Images and runs (20_memory.md R56, R57; 70_reset_and_hazards.md R264, R273). -/

namespace Sys2Proof.Machine

/-! ## Image files (R56) -/

/-- The word of two bytes, low byte first. -/
theorem toNat_append_bytes (lo hi : Byte) : (hi ++ lo : Cell).toNat = lo.toNat + 256 * hi.toNat := by
  rw [BitVec.toNat_append, ← Nat.shiftLeft_add_eq_or_of_lt lo.isLt, Nat.shiftLeft_eq]
  omega

/-- Two bytes more do not change whether the number of bytes is even. -/
theorem length_cons_cons_mod_two (lo hi : Byte) (rest : List Byte) :
    (lo :: hi :: rest).length % 2 = rest.length % 2 := Nat.add_mod_right rest.length 2

/-- The words of a file of an even number of bytes, one for each two bytes. -/
theorem imageOfBytes_even (file : List Byte) (h : file.length % 2 = 0) :
    ∃ image, imageOfBytes file = some image ∧ 2 * image.length = file.length ∧
      ∀ k, (hk : k < image.length) → (h0 : 2 * k < file.length) → (h1 : 2 * k + 1 < file.length) →
        image[k].toNat = file[2 * k].toNat + 256 * file[2 * k + 1].toNat := by
  induction file using imageOfBytes.induct with
  | case1 => exact ⟨[], rfl, rfl, fun k hk => absurd hk (Nat.not_lt_zero k)⟩
  | case2 b => simp at h
  | case3 lo hi rest hrest ih =>
    obtain ⟨image, himage, -⟩ := ih (by rwa [length_cons_cons_mod_two] at h)
    simp [himage] at hrest
  | case4 lo hi rest words hrest ih =>
    obtain ⟨image, himage, hlen, hword⟩ := ih (by rwa [length_cons_cons_mod_two] at h)
    refine ⟨(hi ++ lo) :: image, by rw [imageOfBytes, himage], by simp only [List.length_cons]; omega, ?_⟩
    intro k hk h0 h1
    cases k with
    | zero => exact toNat_append_bytes lo hi
    | succ k =>
      simp only [List.length_cons] at hk h0 h1
      exact hword k (by omega) (by omega) (by omega)

/-- A file of an odd number of bytes has no words. -/
theorem imageOfBytes_odd (file : List Byte) (h : file.length % 2 = 1) : imageOfBytes file = none := by
  induction file using imageOfBytes.induct with
  | case1 => simp at h
  | case2 b => rfl
  | case3 lo hi rest hrest ih => rw [imageOfBytes, hrest]
  | case4 lo hi rest words hrest ih =>
    have hnone := ih (by rwa [length_cons_cons_mod_two] at h)
    simp [hrest] at hnone

/-- Settles O50: by the number of bytes, and of words. -/
theorem imageFormatAndRejection : Obligations.ImageFormatAndRejection := by
  unfold Obligations.ImageFormatAndRejection
  refine ⟨imageOfBytes_even, fun file input depth h => ?_, fun image input depth h => ?_⟩
  · rw [launchBytes, imageOfBytes_odd file h]
  · rw [launch, State.load, if_neg (Nat.not_le.2 h)]

/-! ## Runs (R264, R273) -/

/-- With the pc in range, the status is RUNNING exactly when the engine has a step (10_state.md R35, R37). -/
theorem status_running_iff {s : State} (hpc : PcInRange s) : s.status = .running ↔ s.hasStep = true := by
  rw [hasStep_iff, State.status]
  cases hf : s.fault with
  | some r => simp
  | none =>
    cases hr : s.run with
    | halted => simp
    | running =>
      have hlt : s.pc.toNat < 32768 ↔ s.pc.toNat ≠ 32768 := ⟨Nat.ne_of_lt, Nat.lt_of_le_of_ne hpc⟩
      simp [Config.memWords, hlt]

/-- What a run reports: the status of a state without a step, or a state that still has one. -/
def RunResult.Sound : RunResult → Prop
  | .ended status t => t.hasStep = false ∧ status = t.status
  | .notFinished t => t.hasStep = true

/-- A run goes through the steps there are, and stops only at a state without one or without fuel. -/
theorem runFor_sound (fuel : Nat) (s : State) : (runFor fuel s).Sound := by
  induction fuel generalizing s with
  | zero =>
    rw [runFor]
    cases hs : s.hasStep with
    | true => exact hs
    | false => exact ⟨hs, rfl⟩
  | succ fuel ih =>
    rw [runFor]
    cases hs : s.hasStep with
    | true =>
      obtain ⟨t, ht⟩ := step_total hs
      rw [ht]
      exact ih t
    | false =>
      rw [step_stops hs]
      exact ⟨hs, rfl⟩

/-- Settles O51: the status by `status_running_iff`, the report by `runFor_sound`. -/
theorem runEndsOnlyWithoutStep : Obligations.RunEndsOnlyWithoutStep := by
  unfold Obligations.RunEndsOnlyWithoutStep
  refine ⟨fun s hpc => (status_running_iff hpc).trans step_next_iff_hasStep.symm, fun fuel s t => ?_⟩
  have hsound := runFor_sound fuel s
  exact ⟨fun status h => by rwa [h] at hsound, fun h => by rwa [h] at hsound⟩

end Sys2Proof.Machine
end

section
/-! SUPPORT. Properties over several steps: copying through the stack (41_move_and_stack.md R132), linkage
(43_control_transfer.md R159) and a store seen by the next fetch (20_memory.md R66). -/

namespace Sys2Proof.Machine

section
variable {t : State}

/-- A register reads as the cell that was last written to it. -/
theorem readReg_of_set {regs : Vector Cell 8} {k : Reg} {v : Cell} (ht : t.regs = regs.set k v) : t.readReg k = v := by
  simp [State.readReg, ht]

theorem getOperand_of_set {regs : Vector Cell 8} {k : Reg} {v : Word} (ht : t.regs = regs.set k (cellOfWord v)) :
    t.getOperand (.register k) = .ok v := by
  rw [State.getOperand, readReg_of_set ht, wordOfCell_cellOfWord]

/-- Settles O52: the three results, one after the other. -/
theorem setPushPopCopies : Obligations.SetPushPopCopies := by
  unfold Obligations.SetPushPopCopies
  intro s r r2 v hroom
  refine ⟨_, _, _, exec_set rfl, exec_push (getOperand_of_set rfl) hroom, exec_pop rfl (ofNat_toNat_le v), ?_, rfl⟩
  exact (congrArg BitVec.toNat (readReg_of_set rfl)).trans (cellOfWord_toNat v)

/-- Settles O53: `ret` pops the cell that `call` pushed. -/
theorem callThenRetReturns : Obligations.CallThenRetReturns := by
  unfold Obligations.CallThenRetReturns
  intro s target v hv hroom
  exact ⟨_, exec_call hv hroom, exec_ret rfl⟩

/-- Settles O54: the pc after the `write-mem` is the address stored to, and the window after it lies above. -/
theorem storeSeenByNextFetch : Obligations.StoreSeenByNextFetch := by
  unfold Obligations.StoreSeenByNextFetch
  intro s addr src rest a v hs hf ha haddr hv
  obtain ⟨hrun, hnone, -⟩ := hasStep_iff.1 hs
  have hlt : s.pc.toNat + 3 < 32768 := haddr ▸ a.isLt
  have hpc : (s.pc + 3).toNat = s.pc.toNat + 3 := toNat_add_ofNat (Nat.le_of_lt hlt)
  have hread : (s.mem.write a.toNat (cellOfWord v)).read (s.pc + 3).toNat = cellOfWord v := by
    rw [Memory.read_write, if_pos (hpc.trans haddr.symm)]
  have hwindow : (s.mem.write a.toNat (cellOfWord v)).window ((s.pc + 3).toNat + 1) 3 =
      s.mem.window (s.pc.toNat + 4) 3 := by
    rw [hpc, Memory.window_write_below (by omega)]
  have hstep : State.hasStep { s with mem := s.mem.write a.toNat (cellOfWord v), pc := s.pc + 3 } = true :=
    hasStep_iff.2 ⟨hrun, hnone, hpc ▸ hlt⟩
  refine ⟨_, (step_runs hs hf).trans (exec_writeMem ha hv), rfl, hstep, ?_, fun h21 => ?_⟩
  · rw [fetch_eq (hpc ▸ hlt), ← cellOfWord_eq]
    exact congrArg decode (congrArg₂ List.cons hread hwindow)
  · subst h21
    rw [step_of_opcodeCell (i := .noop) rfl hstep hread, exec_noop, BitVec.add_assoc]
    rfl

end

end Sys2Proof.Machine
end

section
/-! SUPPORT. Frames: what each group of instructions leaves unchanged, on every path that answers a next state. Each is
put together from the lemmas that say which opcodes can change a piece of state. -/

namespace Sys2Proof.Machine

section
variable {i : Instr} {s t : State}

/-- Settles O55: the ten instructions write no piece of state but their destination. -/
theorem registerWritersFrame : Obligations.RegisterWritersFrame := by
  unfold Obligations.RegisterWritersFrame
  intro s t dest b c i hi h
  obtain ⟨hop, hd⟩ : i.opcode ∈ registerOnly ∧ i.operands.head? = some dest := by
    simp only [List.mem_cons, List.not_mem_nil, or_false] at hi
    rcases hi with rfl | rfl | rfl | rfl | rfl | rfl | rfl | rfl | rfl | rfl <;>
      exact ⟨by simp [Instr.opcode, registerOnly], rfl⟩
  have hothers : ∀ o ∈ registerOnly, o ≠ .halt ∧ o ≠ .writeMem ∧ o ≠ .out ∧ o ≠ .input ∧
      o ∉ [.push, .call, .pop, .ret] := by decide
  obtain ⟨hhalt, hmem, hout, hinp, hstack⟩ := hothers _ hop
  exact ⟨exec_keepsRegsBut h hd, exec_keepsMemory h hmem, exec_keeps_stack h hstack, exec_keepsStreams h hout hinp,
    exec_keepsRun h (ne_of_apply_ne Instr.opcode hhalt), exec_faultOnlyOf h⟩

/-- What push, call, pop and ret have in common: they touch the stack and perhaps a register. -/
theorem exec_stackInstr_keeps (hi : i.opcode ∈ [.push, .call, .pop, .ret]) (h : exec i s = .next t) :
    KeepsMemory s t ∧ KeepsStreams s t ∧ KeepsRun s t ∧ FaultOnlyOf i s t := by
  have hothers : ∀ o ∈ [Opcode.push, .call, .pop, .ret], o ≠ .halt ∧ o ≠ .writeMem ∧ o ≠ .out ∧ o ≠ .input := by
    decide
  obtain ⟨hhalt, hmem, hout, hinp⟩ := hothers _ hi
  exact ⟨exec_keepsMemory h hmem, exec_keepsStreams h hout hinp,
    exec_keepsRun h (ne_of_apply_ne Instr.opcode hhalt), exec_faultOnlyOf h⟩

/-- Settles O56: of the two ways to change the stack, these have the one that adds a cell. -/
theorem pushCallFrame : Obligations.PushCallFrame := by
  unfold Obligations.PushCallFrame
  intro s t o i hi h
  have hop : i.opcode = .push ∨ i.opcode = .call := by
    simp only [List.mem_cons, List.not_mem_nil, or_false] at hi
    rcases hi with rfl | rfl
    · exact .inl rfl
    · exact .inr rfl
  obtain ⟨hmem, hstreams, hrun, hfault⟩ := exec_stackInstr_keeps (by rcases hop with hop | hop <;> simp [hop]) h
  have hregs : KeepsRegs s t := exec_keepsRegs h (by rcases hop with hop | hop <;> simp [hop, registerWriters])
  refine ⟨hregs, hmem, hstreams, hrun, hfault, ?_⟩
  obtain hkeep | ⟨-, -, v, hadd, -⟩ | ⟨hpop, -⟩ := exec_stack h
  · exact .inl hkeep
  · exact .inr ⟨v, hadd⟩
  · rcases hop with hop | hop <;> simp [hop] at hpop

/-- Settles O57: of the two ways to change the stack, these have the one that removes the tail. -/
theorem popRetFrame : Obligations.PopRetFrame := by
  unfold Obligations.PopRetFrame
  intro s t dest i hi h
  have hret : i = .ret → KeepsRegs s t := fun hr => exec_keepsRegs h (by simp [hr, Instr.opcode, registerWriters])
  obtain ⟨hop, hregs⟩ : (i.opcode = .pop ∨ i.opcode = .ret) ∧ KeepsRegsBut dest s t := by
    simp only [List.mem_cons, List.not_mem_nil, or_false] at hi
    rcases hi with rfl | rfl
    · exact ⟨.inl rfl, exec_keepsRegsBut h rfl⟩
    · exact ⟨.inr rfl, fun k _ => hret rfl k⟩
  obtain ⟨hmem, hstreams, hrun, hfault⟩ := exec_stackInstr_keeps (by rcases hop with hop | hop <;> simp [hop]) h
  refine ⟨hregs, hret, hmem, hstreams, hrun, hfault, ?_⟩
  obtain hkeep | ⟨hpush, -⟩ | ⟨-, v, hdrop⟩ := exec_stack h
  · exact .inl hkeep
  · rcases hop with hop | hop <;> simp [hop] at hpush
  · exact .inr (by rw [hdrop, List.dropLast_concat])

/-- Settles O58: a jump is on no list of those that change a piece of state. -/
theorem jumpFrame : Obligations.JumpFrame := by
  unfold Obligations.JumpFrame
  intro s t c target i hi h
  have hop : i.opcode ∈ [Opcode.jmp, .jt, .jf] := by
    simp only [List.mem_cons, List.not_mem_nil, or_false] at hi
    rcases hi with rfl | rfl | rfl <;> simp [Instr.opcode]
  have hothers : ∀ o ∈ [Opcode.jmp, .jt, .jf], o ∉ registerWriters ∧ o ≠ .halt ∧ o ≠ .writeMem ∧ o ≠ .out ∧
      o ≠ .input ∧ o ∉ [.push, .call, .pop, .ret] := by decide
  obtain ⟨hregs, hhalt, hmem, hout, hinp, hstack⟩ := hothers _ hop
  exact ⟨exec_keepsRegs h hregs, exec_keepsMemory h hmem, exec_keeps_stack h hstack, exec_keepsStreams h hout hinp,
    exec_keepsRun h (ne_of_apply_ne Instr.opcode hhalt), exec_faultOnlyOf h⟩

/-- Settles O59: memory is kept, or is one `memWrite` at the resolved address. -/
theorem writeMemFrame : Obligations.WriteMemFrame := by
  unfold Obligations.WriteMemFrame
  intro s t addr src h
  refine ⟨fun a ha b hb => ?_, fun e he => ?_, exec_keepsRegs h (by simp [Instr.opcode, registerWriters]),
    exec_keeps_stack h (by simp [Instr.opcode]), exec_keepsStreams h (by simp [Instr.opcode]) (by simp [Instr.opcode]),
    exec_keepsRun h (by simp), exec_faultOnlyOf h⟩
  · obtain hkeep | ⟨_, _, a', v, hi, ha', -, hset⟩ := exec_mem h
    · exact memRead_congr hkeep b
    · obtain ⟨rfl, rfl⟩ := Instr.writeMem.inj hi
      obtain rfl := getOperand_ok_unique ha ha'
      rw [memRead_congr hset, State.memRead_memWrite, if_neg hb]
  · obtain hkeep | ⟨_, _, a', v, hi, ha', -⟩ := exec_mem h
    · exact memRead_congr hkeep
    · obtain ⟨rfl, rfl⟩ := Instr.writeMem.inj hi
      rw [he] at ha'
      cases ha'

/-- Settles O60: each of the four is on the list for its own piece of state only. -/
theorem systemFrame : Obligations.SystemFrame := by
  unfold Obligations.SystemFrame
  intro s t o i hi h
  obtain ⟨hop, hinput, hout⟩ : i.opcode ∈ [Opcode.halt, .out, .input, .noop] ∧
      (i.opcode = .input → i = .input o) ∧ (i.opcode = .out → i = .out o) := by
    simp only [List.mem_cons, List.not_mem_nil, or_false] at hi
    rcases hi with rfl | rfl | rfl | rfl <;> simp [Instr.opcode]
  have hothers : ∀ o ∈ [Opcode.halt, .out, .input, .noop], (o ≠ .input → o ∉ registerWriters) ∧ o ≠ .writeMem ∧
      o ∉ [.push, .call, .pop, .ret] := by decide
  obtain ⟨hregs, hmem, hstack⟩ := hothers _ hop
  have hkeepsRegs (hne : i ≠ .input o) : KeepsRegs s t := exec_keepsRegs h (hregs (mt hinput hne))
  refine ⟨?_, fun hne => ⟨hkeepsRegs hne, exec_keeps_inp h (mt hinput hne)⟩, exec_keepsMemory h hmem,
    exec_keeps_stack h hstack, exec_keeps_diag h, fun hne => exec_keeps_out (mt hout hne) h,
    fun hne => exec_keeps_run hne h, exec_keeps_stackDepth h, exec_faultOnlyOf h⟩
  by_cases hin : i = .input o
  · exact exec_keepsRegsBut h (by rw [hin]; rfl)
  · exact fun k _ => hkeepsRegs hin k

end

end Sys2Proof.Machine
end
